-- ==== Sys2Proof/Config.lean ====
section
/-! DEFINITION. The wired constants of the block (spec/00_scope.md R3; no register holds them, R26). -/

namespace Sys2Proof.Config

/-- `P_FIELD`, the field prime (R3, `2^256 − 2^32 − 977`). The numerals of this file are R3's, which the spec marks as its
general knowledge G1 (PRESUMED, notes/assumptions/5.md: unsafe). -/
def pField : Nat := 0xFFFFFFFFFFFFFFFFFFFFFFFFFFFFFFFFFFFFFFFFFFFFFFFFFFFFFFFEFFFFFC2F

/-- `N_ORDER`, the curve order (R3). -/
def nOrder : Nat := 0xFFFFFFFFFFFFFFFFFFFFFFFFFFFFFFFEBAAEDCE6AF48A03BBFD25E8CD0364141

/-- `G_X`, the generator's x (R3). -/
def gX : Nat := 0x79BE667EF9DCBBAC55A06295CE870B07029BFCDB2DCE28D959F2815B16F81798

/-- `G_Y`, the generator's y (R3). -/
def gY : Nat := 0x483ADA7726A3C4655DA4FBFC0E1108A8FD17B448A68554199C47D08FFB10D4B8

/-- The exponent `(P_FIELD + 1) / 4` of the square-root candidate (R3, R78); the division is exact. -/
def sqrtExponent : Nat := (pField + 1) / 4

/-- `(N_ORDER − 1) / 2`, the largest low s (R3, R100); the division is exact. -/
def halfOrder : Nat := (nOrder - 1) / 2

end Sys2Proof.Config
end

