-- ==== Sys2Proof/Word.lean ====
section
/-! DEFINITION. The bit widths of the block (spec/00_scope.md R7): a byte of the point buffer, a port word, a 256-bit
register, a port address. -/

namespace Sys2Proof

/-- One byte of the point buffer or of a register's image in the register space. -/
abbrev Byte := BitVec 8

/-- The data of one port access, and a command word (R36, R53). -/
abbrev Word := BitVec 32

/-- The contents of an operand or result register (R14, R15). -/
abbrev Reg := BitVec 256

/-- A byte address of the register space, 0x000 to 0x3FF (R35). -/
abbrev Addr := BitVec 10

end Sys2Proof
end

