-- ==== Sys2Proof/Syntax.lean ====
section
/-! DEFINITION. The commands (spec/30_encoding.md R55: one constructor per row of spec/opcode_table.json) and the
fields of the one command format C (R54). -/

namespace Sys2Proof

/-- The modulus a `MODINV` or `MODEXP` works with: the option bit `MSEL` (R54, R66). -/
inductive ModSel where
  | field   -- MSEL = 0: `P_FIELD`
  | order   -- MSEL = 1: `N_ORDER`
deriving DecidableEq, Repr

/-- The wire form `PENC` emits: the option bit `COMP` (R54, R75). -/
inductive PointForm where
  | uncompressed   -- COMP = 0: 65 bytes
  | compressed     -- COMP = 1: 33 bytes
deriving DecidableEq, Repr

/-- The nine commands. A command has no immediates and no register numbers: its operands are fixed registers
(R59, R17), so the option is all a constructor carries. -/
inductive Instr where
  | modinv (m : ModSel)
  | modexp (m : ModSel)
  | pdec
  | penc (f : PointForm)
  | pdbl
  | padd
  | pmul
  | sign
  | verify
deriving DecidableEq, Repr

/-- The four fields of format C, as they stand in a word (R54). -/
structure CommandFields where
  /-- bits 7:0 -/
  opcode : BitVec 8
  /-- bit 8, `MSEL` -/
  msel : Bool
  /-- bit 9, `COMP` -/
  comp : Bool
  /-- bits 31:10, `ZERO` -/
  zero : BitVec 22
deriving DecidableEq, Repr

end Sys2Proof
end

