-- ==== Sys2Proof/Machine/State.lean ====
section
/-! DEFINITION. The state of the block (spec/10_state.md R13), the labels of its steps (spec/70 R141), what the port
answers (spec/20_memory.md R36), the failure kinds (spec/60_exceptions.md R111), the faults and refusals of the model,
and the state after reset (R27). -/

namespace Sys2Proof.Machine

/-- The failures a completion can report: codes 1 to 7 of R111. -/
inductive FailKind where
  | invalidScalarRange
  | invalidPointEncoding
  | pointAtInfinityUndefined
  | notInvertible
  | invalidSignature
  | resample
  | illegalCommand
deriving DecidableEq, Repr

/-- The four kinds of step of R141. -/
inductive StepLabel where
  /-- the host's `RegRead(addr)` -/
  | regRead (addr : Addr)
  /-- the host's `RegWrite(addr, data)` -/
  | regWrite (addr : Addr) (data : Word)
  /-- the engine's turn: the completion step, if a command is in flight -/
  | complete
  /-- the reset input is asserted -/
  | reset
deriving DecidableEq, Repr

/-- What the port answers to one transaction (R36). -/
inductive PortResp where
  | read (data : Word) (err : Bool)
  | write (err : Bool)
deriving DecidableEq, Repr

/-- Byte storage: (byte address of the register space, byte) pairs, addresses strictly rising, no zero byte listed. An
address that is not listed reads as 0x00, the reset contents of R27. -/
abbrev Memory := List Host.Cell

/-- Every piece of state of R13, and after it the two fields of the model's own: the steps still to come and the answer
of the last one (notes/assumptions/1.md, 2.md). -/
structure State where
  /-- modular operand a / base -/
  a : Reg
  /-- exponent -/
  e : Reg
  /-- point P, x -/
  px : Reg
  /-- point P, y -/
  py : Reg
  /-- point Q or public key, x -/
  qx : Reg
  /-- point Q or public key, y -/
  qy : Reg
  /-- multiplier / nonce -/
  k : Reg
  /-- secret key -/
  d : Reg
  /-- message hash -/
  z : Reg
  /-- signature r, input of VERIFY -/
  sr : Reg
  /-- signature s, input of VERIFY -/
  ss : Reg
  /-- result x / r / scalar result / verdict -/
  rx : Reg
  /-- result y / s -/
  ry : Reg
  /-- `PBUF[0..67]`: byte i at byte address 0x1C0 + i (R39) -/
  pbuf : Memory
  /-- `PLEN` -/
  plen : BitVec 7
  /-- `CMD`: the last word written while not busy -/
  cmd : Word
  /-- `STATUS.BUSY` -/
  busy : Bool
  /-- `STATUS.DONE` -/
  done : Bool
  /-- `STATUS.ERR` -/
  err : BitVec 4
  /-- `CTRL.IE` -/
  ie : Bool
  /-- MODEL'S OWN: the steps that happen next, in order: one interleaving of R141 (DESIGN CHOICE,
  notes/assumptions/1.md: safe but for liveness) -/
  agenda : List StepLabel
  /-- MODEL'S OWN: the port's answer in the step just taken; none if that step was no port access (DESIGN CHOICE,
  notes/assumptions/2.md: safe) -/
  resp : Option PortResp
deriving DecidableEq, Repr

/-- Why the machine stops. -/
inductive Fault where
  /-- Raised by the completion step alone, when `CMD` is no legal word although `BUSY` is 1. R117 says this cannot
  happen and gives it no effect; no reachable state has it (DESIGN CHOICE, notes/assumptions/4.md). Safe: the model
  stops. -/
  | illegalInFlight
deriving DecidableEq, Repr

/-- Why the model gives no meaning. -/
inductive Refusal where
  /-- Raised by an arm of `exec` for a command that has no meaning yet. No arm does so now. Safe: the model stops. -/
  | notModelled (mnemonic : String)
deriving DecidableEq, Repr

/-- The state after reset: everything 0 (R27). Nothing is to come and nothing has been answered. -/
def State.reset : State where
  a := 0
  e := 0
  px := 0
  py := 0
  qx := 0
  qy := 0
  k := 0
  d := 0
  z := 0
  sr := 0
  ss := 0
  rx := 0
  ry := 0
  pbuf := []
  plen := 0
  cmd := 0
  busy := false
  done := false
  err := 0
  ie := false
  agenda := []
  resp := none

end Sys2Proof.Machine
end

