-- ==== Sys2Proof/Machine/Flags.lean ====
section
/-! DEFINITION. The status and control words and the interrupt line, from the fields they show
(spec/10_state.md R19 to R22, spec/60_exceptions.md R111, R119). The block has no arithmetic flags (R21). -/

namespace Sys2Proof.Machine

/-- `code_of` (R111). -/
def FailKind.code : FailKind → BitVec 4
  | .invalidScalarRange => 1
  | .invalidPointEncoding => 2
  | .pointAtInfinityUndefined => 3
  | .notInvertible => 4
  | .invalidSignature => 5
  | .resample => 6
  | .illegalCommand => 7

/-- Outcome code 0, `OK` (R111). -/
def okCode : BitVec 4 := 0

/-- `STATUS` as it reads: BUSY in bit 0, DONE in bit 1, ERR in bits 7:4, the rest 0 (R21). -/
def statusWord (s : State) : Word :=
  0#24 ++ s.err ++ 0#2 ++ BitVec.ofBool s.done ++ BitVec.ofBool s.busy

/-- `CTRL` as it reads: IE in bit 0, the rest 0 (R22). -/
def ctrlWord (s : State) : Word := 0#31 ++ BitVec.ofBool s.ie

/-- `PLEN` as it reads: LEN in bits 6:0, the rest 0 (R37). -/
def plenWord (s : State) : Word := 0#25 ++ s.plen

/-- The interrupt line, a level recomputed from the state (R119). -/
def irq (s : State) : Bool := s.ie && s.done

end Sys2Proof.Machine
end

