-- ==== Sys2Proof/Machine/Ops.lean ====
section
/-! DEFINITION. The shared operations: byte storage, the writes of the completion step (which is this hardware's taking
of an exception, spec/60_exceptions.md R117), and the acknowledge (its return, R120). -/

namespace Sys2Proof.Machine

/-- The canonical form: addresses strictly rising, no listed byte equal to what an unlisted address reads as. -/
abbrev Memory.wf (m : Memory) : Prop :=
  List.Pairwise (fun c d : Host.Cell => c.1 < d.1) m ∧ ∀ c ∈ m, c.2 ≠ 0

/-- What an address that is not listed reads as: the reset contents (R27). -/
def Memory.unlisted : Byte := 0x00

/-- The byte at an address. -/
def Memory.read : Memory → Nat → Byte
  | [], _ => Memory.unlisted
  | (b, v) :: m, a => if a = b then v else Memory.read m a

/-- Write one byte, keeping the canonical form: writing the unlisted value takes the entry out. -/
def Memory.write : Memory → Nat → Byte → Memory
  | [], a, v => if v = Memory.unlisted then [] else [(a, v)]
  | (b, w) :: m, a, v =>
    if a < b then (if v = Memory.unlisted then (b, w) :: m else (a, v) :: (b, w) :: m)
    else if a = b then (if v = Memory.unlisted then m else (a, v) :: m)
    else (b, w) :: Memory.write m a v

/-- Write a run of bytes from an address upwards. -/
def Memory.writeBytes : Memory → Nat → List Byte → Memory
  | m, _, [] => m
  | m, a, v :: vs => Memory.writeBytes (Memory.write m a v) (a + 1) vs

/-- The byte address of `PBUF[i]` (R39). -/
def pbufAddr (i : Nat) : Nat := 0x1C0 + i

/-- The number of bytes of `PBUF` (R18). -/
def pbufSize : Nat := 68

/-- What evaluating a command gives: two register values, an encoded point, or a failure (the three cases of R117). -/
inductive CmdResult where
  | value (x y : Nat)
  | buffer (len : Nat) (bytes : List Byte)
  | fail (kind : FailKind)
deriving DecidableEq, Repr

/-- The status writes that end every completion (R117, last three lines). -/
def endCommand (code : BitVec 4) (s : State) : State :=
  { s with busy := false, done := true, err := code }

/-- A completion with a non-zero outcome code, which is how this hardware takes an exception: nothing is saved, no
mode changes; the results are zeroed and the code recorded (R117, R120). -/
def takeFailure (kind : FailKind) (s : State) : State :=
  endCommand kind.code { s with rx := 0, ry := 0 }

/-- A completion that delivers two register values (R117), which are below 2^256 (DEDUCED, notes/assumptions/15.md:
safe). -/
def deliverValue (x y : Nat) (s : State) : State :=
  endCommand okCode { s with rx := BitVec.ofNat 256 x, ry := BitVec.ofNat 256 y }

/-- A completion that delivers an encoded point: the whole of `PBUF` is written, padded with 0x00 (R81, R117). -/
def deliverBuffer (len : Nat) (bytes : List Byte) (s : State) : State :=
  endCommand okCode
    { s with
      plen := BitVec.ofNat 7 len
      pbuf := s.pbuf.writeBytes (pbufAddr 0) (bytes ++ List.replicate (pbufSize - bytes.length) 0x00) }

/-- The writes of the completion step, by the case of R117. -/
def complete (r : CmdResult) (s : State) : State :=
  match r with
  | .value x y => deliverValue x y s
  | .buffer len bytes => deliverBuffer len bytes s
  | .fail kind => takeFailure kind s

/-- The host's acknowledge: clear DONE and nothing else (R120, R44). -/
def acknowledge (s : State) : State := { s with done := false }

/-- A step begins: the steps still to come are those after it, and it has answered nothing yet. -/
def beginStep (rest : List StepLabel) (s : State) : State := { s with agenda := rest, resp := none }

end Sys2Proof.Machine
end

