-- ==== Sys2Proof/Machine/Operands.lean ====
section
/-! DEFINITION. The operands: the registers by name, their words and bytes (big-endian, spec/20_memory.md R38), the
point buffer, and how the engine reads each as an integer or a point (R17, R51, spec/41 R76). -/

namespace Sys2Proof.Machine

open Sys2Proof.Config

/-- The eleven operand registers (R14), in the order of the address map (R37). -/
inductive OperandReg where
  | a | e | px | py | qx | qy | k | d | z | sr | ss
deriving DecidableEq, Repr

/-- The two result registers (R15). -/
inductive ResultReg where
  | rx | ry
deriving DecidableEq, Repr

/-- The value of an operand register. -/
def State.operand (s : State) : OperandReg → Reg
  | .a => s.a
  | .e => s.e
  | .px => s.px
  | .py => s.py
  | .qx => s.qx
  | .qy => s.qy
  | .k => s.k
  | .d => s.d
  | .z => s.z
  | .sr => s.sr
  | .ss => s.ss

/-- Write an operand register; only the port does so (R14). -/
def State.setOperand (s : State) (r : OperandReg) (v : Reg) : State :=
  match r with
  | .a => { s with a := v }
  | .e => { s with e := v }
  | .px => { s with px := v }
  | .py => { s with py := v }
  | .qx => { s with qx := v }
  | .qy => { s with qy := v }
  | .k => { s with k := v }
  | .d => { s with d := v }
  | .z => { s with z := v }
  | .sr => { s with sr := v }
  | .ss => { s with ss := v }

/-- The value of a result register. -/
def State.result (s : State) : ResultReg → Reg
  | .rx => s.rx
  | .ry => s.ry

/-- Word `j` of a register, word 0 the most significant: `R[255−32j : 224−32j]` (R38). -/
def regWord (v : Reg) (j : Nat) : Word := v.extractLsb' (224 - 32 * j) 32

/-- Replace word `j` of a register and leave the other 224 bits (R44). -/
def setRegWord (v : Reg) (j : Nat) (w : Word) : Reg :=
  (v &&& ~~~((0xFFFFFFFF#32).setWidth 256 <<< (224 - 32 * j))) ||| (w.setWidth 256 <<< (224 - 32 * j))

/-- `PBUF[i]` (R18, R51). -/
def State.pbufByte (s : State) (i : Nat) : Byte := s.pbuf.read (pbufAddr i)

/-- `PBUF[lo .. lo + n − 1]`, lowest index first. -/
def State.pbufBytes (s : State) (lo n : Nat) : List Byte := (List.range n).map fun i => s.pbufByte (lo + i)

/-- `be32(v)`: 32 bytes, most significant first (R76). -/
def be32 (v : Reg) : List Byte := (List.range 32).map fun i => v.extractLsb' (248 - 8 * i) 8

/-- `from_be`: the integer whose most significant byte is the first (R76). -/
def fromBe (bytes : List Byte) : Nat := bytes.foldl (fun acc b => acc * 256 + b.toNat) 0

/-- The modulus `MSEL` selects: `msel_mod` of R66. -/
def mselMod : ModSel → Nat
  | .field => pField
  | .order => nOrder

/-- A point is a pair of integers; the point at infinity is none (R9, R85). -/
structure Point where
  x : Nat
  y : Nat
deriving DecidableEq, Repr

/-- The generator `G` (R3). -/
def generator : Point := ⟨gX, gY⟩

/-- The point (`PX`, `PY`). -/
def State.pointP (s : State) : Point := ⟨s.px.toNat, s.py.toNat⟩

/-- The point (`QX`, `QY`). -/
def State.pointQ (s : State) : Point := ⟨s.qx.toNat, s.qy.toNat⟩

end Sys2Proof.Machine
end

