-- ==== Sys2Proof/Machine/Modular.lean ====
section
/-! DEFINITION. Modular arithmetic (spec/40_modular.md): `mod`, `inv`, `powmod`, and the commands MODINV and MODEXP. -/

namespace Sys2Proof.Machine

open Sys2Proof.Config

/-- `mod(a, m)`: the representative of `a` in [0, m), also for negative `a` (R65). -/
def modulo (a : Int) (m : Nat) : Nat := (a % (m : Int)).toNat

/-- The loop of the extended Euclidean algorithm (R72), on at most `fuel` quotients. -/
def euclidLoop : Nat → Nat → Nat → Int → Int → Int
  | 0, _, _, t0, _ => t0
  | fuel + 1, r0, r1, t0, t1 =>
    if r1 = 0 then t0 else euclidLoop fuel r1 (r0 % r1) t1 (t0 - (r0 / r1 : Nat) * t1)

/-- Quotients enough for a modulus of 256 bits: two of them halve the remainder (DEDUCED, notes/assumptions/9.md:
safe). -/
def euclidFuel : Nat := 2 * 256 + 2

/-- `inv(a, m)` (R67): fails exactly when `gcd(mod(a, m), m) ≠ 1`; else the inverse in [0, m), found as R72 finds it. -/
def inv (a : Int) (m : Nat) : Except FailKind Nat :=
  if Nat.gcd (modulo a m) m ≠ 1 then .error .notInvertible
  else .ok (modulo (euclidLoop euclidFuel m (modulo a m) 0 1) m)

/-- `bitlen(k)` for `k ≥ 1`, and 0 for 0 (spec/00_scope.md section 7). -/
def bitlen (k : Nat) : Nat := if k = 0 then 0 else Nat.log2 k + 1

/-- `bit(k, i)` (spec/00_scope.md section 7). -/
def bit (k i : Nat) : Nat := k / 2 ^ i % 2

/-- The bits `i − 1` down to 0 of R73's loop: square, and multiply where the bit is 1. -/
def powmodLoop (b e m : Nat) : Nat → Nat → Nat
  | 0, acc => acc
  | i + 1, acc =>
    powmodLoop b e m i (if bit e i = 1 then acc * acc % m * b % m else acc * acc % m)

/-- `powmod(b, e, m) = mod(b^e, m)` (R68), computed as R73 computes it; that the two agree is a lemma. -/
def powmod (b : Int) (e m : Nat) : Nat := powmodLoop (modulo b m) e m (bitlen e) (1 % m)

/-- What a command whose function gives one number delivers: that number in RX, 0 in RY. -/
def CmdResult.ofNumber : Except FailKind Nat → CmdResult
  | .ok x => .value x 0
  | .error kind => .fail kind

/-- `MODINV` (R69). -/
def execModinv (m : ModSel) (s : State) : Host.Outcome State Fault Refusal :=
  .next (complete (.ofNumber (inv s.a.toNat (mselMod m))) s)

/-- `MODEXP` (R70). -/
def execModexp (m : ModSel) (s : State) : Host.Outcome State Fault Refusal :=
  .next (complete (.value (powmod s.a.toNat s.e.toNat (mselMod m)) 0) s)

end Sys2Proof.Machine
end

