-- ==== Sys2Proof/Machine/Codec.lean ====
section
/-! DEFINITION. The point codec (spec/41_point_codec.md): decoding with decompression, encoding, and the commands PDEC
and PENC. It checks the encoding and nothing about the point (R82). -/

namespace Sys2Proof.Machine

open Sys2Proof.Config

/-- `decompress_y(x, prefix)` (R78), literally: the candidate root, replaced by `P_FIELD − y` where its parity is not
the lead byte's. -/
def decompressY (x : Nat) (lead : Byte) : Nat :=
  let y := powmod (modulo (x * x * x + 7) pField) sqrtExponent pField
  if y % 2 ≠ lead.toNat % 2 then pField - y else y

/-- `decode_point(b, L)` (R77). -/
def decodePoint (b : List Byte) (len : Nat) : Except FailKind Point :=
  let lead := b.getD 0 0
  let x := fromBe ((b.drop 1).take 32)
  if len = 65 ∧ lead = 0x04 then .ok ⟨x, fromBe ((b.drop 33).take 32)⟩
  else if len = 33 ∧ (lead = 0x02 ∨ lead = 0x03) then .ok ⟨x, decompressY x lead⟩
  else .error .invalidPointEncoding

/-- `encode_point(x, y, comp)` (R79): the bytes; their number is the length. -/
def encodePoint (x y : Reg) : PointForm → List Byte
  | .compressed => (0x02 + (y.extractLsb' 0 1).setWidth 8) :: be32 x
  | .uncompressed => 0x04 :: (be32 x ++ be32 y)

/-- What a command whose function gives a point delivers: x in RX, y in RY. -/
def CmdResult.ofPoint : Except FailKind Point → CmdResult
  | .ok p => .value p.x p.y
  | .error kind => .fail kind

/-- `PDEC` (R80). -/
def execPdec (s : State) : Host.Outcome State Fault Refusal :=
  .next (complete (.ofPoint (decodePoint (s.pbufBytes 0 65) s.plen.toNat)) s)

/-- `PENC` (R81). -/
def execPenc (f : PointForm) (s : State) : Host.Outcome State Fault Refusal :=
  .next (complete (.buffer (encodePoint s.px s.py f).length (encodePoint s.px s.py f)) s)

end Sys2Proof.Machine
end

