-- ==== Sys2Proof/Machine/PointArith.lean ====
section
/-! DEFINITION. Point arithmetic (spec/42_point_arith.md): `point_double`, `point_add`, `point_mul`, and the commands
PDBL, PADD and PMUL. The formulas are applied to whatever pair is given (R85, R92). -/

namespace Sys2Proof.Machine

open Sys2Proof.Config

/-- `point_double(P)` (R86): the vertical tangent is tested first, modulo p. -/
def pointDouble (p : Point) : Except FailKind Point :=
  if modulo p.y pField = 0 then .error .pointAtInfinityUndefined
  else
    match inv (modulo (2 * p.y) pField) pField with
    | .error kind => .error kind
    | .ok i =>
      let lam : Int := modulo (3 * p.x * p.x * i) pField
      let x' := modulo (lam * lam - 2 * p.x) pField
      .ok ⟨x', modulo (lam * (p.x - x') - p.y) pField⟩

/-- `point_add(P, Q)` (R87): equality and equal x are tested on the integers, before the general formula. -/
def pointAdd (p q : Point) : Except FailKind Point :=
  if p.x = q.x ∧ p.y = q.y then pointDouble p
  else if p.x = q.x then .error .pointAtInfinityUndefined
  else
    match inv (modulo (p.x - q.x) pField) pField with
    | .error kind => .error kind
    | .ok i =>
      let lam : Int := modulo ((p.y - q.y) * i) pField
      let x' := modulo (lam * lam - p.x - q.x) pField
      .ok ⟨x', modulo (lam * (p.x - x') - p.y) pField⟩

/-- The bits `i − 1` down to 0 of R88's loop: double, and add `P` where the bit is 1; the first failure ends it (R96). -/
def pointMulLoop (p : Point) (k : Nat) : Nat → Point → Except FailKind Point
  | 0, acc => .ok acc
  | i + 1, acc =>
    match pointDouble acc with
    | .error kind => .error kind
    | .ok twice =>
      if bit k i = 1 then
        match pointAdd twice p with
        | .error kind => .error kind
        | .ok sum => pointMulLoop p k i sum
      else pointMulLoop p k i twice

/-- `point_mul(P, k)` (R88): the accumulator starts at `P`, which stands for the leading bit. -/
def pointMul (p : Point) (k : Nat) : Except FailKind Point :=
  if k = 0 then .error .invalidScalarRange else pointMulLoop p k (bitlen k - 1) p

/-- `PDBL` (R89). -/
def execPdbl (s : State) : Host.Outcome State Fault Refusal :=
  .next (complete (.ofPoint (pointDouble s.pointP)) s)

/-- `PADD` (R90). -/
def execPadd (s : State) : Host.Outcome State Fault Refusal :=
  .next (complete (.ofPoint (pointAdd s.pointP s.pointQ)) s)

/-- `PMUL` (R91). -/
def execPmul (s : State) : Host.Outcome State Fault Refusal :=
  .next (complete (.ofPoint (pointMul s.pointP s.k.toNat)) s)

end Sys2Proof.Machine
end

