-- ==== Sys2Proof/Machine/Ecdsa.lean ====
section
/-! DEFINITION. The ECDSA cores (spec/43_ecdsa.md): one signing attempt with the host's nonce (R104), verification, and
the commands SIGN and VERIFY. -/

namespace Sys2Proof.Machine

open Sys2Proof.Config

/-- `valid_scalar(k)` (R98). -/
abbrev validScalar (k : Nat) : Prop := 1 ≤ k ∧ k ≤ nOrder - 1

/-- `low_s(s)` (R100). -/
def lowS (s : Nat) : Nat := if s > halfOrder then nOrder - s else s

/-- A signature (r, s) (R11). -/
structure Signature where
  r : Nat
  s : Nat
deriving DecidableEq, Repr

/-- The second half of `sign_core`, once `R = point_mul(G, k)` is there: from `r` to the normalized `s` (R99). -/
def signWithNonceX (d z k rX : Nat) : Except FailKind Signature :=
  let r := modulo rX nOrder
  if r = 0 then .error .resample
  else
    match inv k nOrder with
    | .error kind => .error kind
    | .ok ki =>
      let s := modulo (ki * (z + r * d)) nOrder
      if s = 0 then .error .resample else .ok ⟨r, lowS s⟩

/-- `sign_core(d, z, k)` (R99): the key is tested first, then the nonce, before the multiplication. -/
def signCore (d z k : Nat) : Except FailKind Signature :=
  if ¬ validScalar d then .error .invalidScalarRange
  else if ¬ validScalar k then .error .resample
  else
    match pointMul generator k with
    | .error kind => .error kind
    | .ok rPoint => signWithNonceX d z k rPoint.x

/-- The point `u1·G + u2·Q` of verification (R102). -/
def verifyPoint (q : Point) (u1 u2 : Nat) : Except FailKind Point :=
  match pointMul generator u1 with
  | .error kind => .error kind
  | .ok a =>
    match pointMul q u2 with
    | .error kind => .error kind
    | .ok b => pointAdd a b

/-- `verify_core(Q, z, r, s)` (R102): true is `accept`; every failure of an inner function is a rejection. -/
def verifyCore (q : Point) (z r s : Nat) : Bool :=
  if nOrder ≤ r ∨ nOrder ≤ s then false
  else
    match inv s nOrder with
    | .error _ => false
    | .ok w =>
      match verifyPoint q (modulo (z * w) nOrder) (modulo (r * w) nOrder) with
      | .error _ => false
      | .ok p => modulo p.x nOrder == r

/-- What `SIGN` delivers: r in RX, s in RY. -/
def CmdResult.ofSignature : Except FailKind Signature → CmdResult
  | .ok sig => .value sig.r sig.s
  | .error kind => .fail kind

/-- What `VERIFY` delivers: 1 in RX where it accepts (R103). -/
def CmdResult.ofVerdict (accept : Bool) : CmdResult := if accept then .value 1 0 else .fail .invalidSignature

/-- `SIGN` (R101). -/
def execSign (s : State) : Host.Outcome State Fault Refusal :=
  .next (complete (.ofSignature (signCore s.d.toNat s.z.toNat s.k.toNat)) s)

/-- `VERIFY` (R103). -/
def execVerify (s : State) : Host.Outcome State Fault Refusal :=
  .next (complete (.ofVerdict (verifyCore s.pointQ s.z.toNat s.sr.toNat s.ss.toNat)) s)

end Sys2Proof.Machine
end

