-- ==== Sys2Proof/Machine/Dispatch.lean ====
section
/-! DEFINITION. The meaning of each command: `exec(c)` of spec/60_exceptions.md R117 and the writes of the completion
step, one arm per command. -/

namespace Sys2Proof.Machine

def exec (i : Instr) (s : State) : Host.Outcome State Fault Refusal :=
  match i with
  -- modular arithmetic
  | .modinv m => Sys2Proof.Machine.execModinv m s
  | .modexp m => Sys2Proof.Machine.execModexp m s
  -- point codec
  | .pdec => Sys2Proof.Machine.execPdec s
  | .penc f => Sys2Proof.Machine.execPenc f s
  -- point arithmetic
  | .pdbl => Sys2Proof.Machine.execPdbl s
  | .padd => Sys2Proof.Machine.execPadd s
  | .pmul => Sys2Proof.Machine.execPmul s
  -- ECDSA
  | .sign => Sys2Proof.Machine.execSign s
  | .verify => Sys2Proof.Machine.execVerify s

end Sys2Proof.Machine
end

