-- ==== Sys2Proof/WellFormed.lean ====
section
/-! DEFINITION. Which field values of format C are a legal command (spec/30_encoding.md R56, R57). `Instr` itself has
no ill-formed value: an option a command does not use cannot be written in it. So the checks stand on the fields of a
word, where the spec puts them; `Decode.lean` reads a word by the case analysis of R61 instead, and that the two agree
is a statement. -/

namespace Sys2Proof

/-- `ZERO` must be 0 (R54). -/
def CommandFields.zeroOk (f : CommandFields) : Bool := f.zero == 0

/-- Opcode 0x00 and the opcodes 0x0A to 0xFF are illegal (R57). -/
def CommandFields.opcodeOk (f : CommandFields) : Bool := 0x01 ≤ f.opcode.toNat && f.opcode.toNat ≤ 0x09

/-- `MSEL` must be 0 unless the opcode is 0x01 or 0x02 (R56). -/
def CommandFields.mselOk (f : CommandFields) : Bool := !f.msel || f.opcode == 0x01 || f.opcode == 0x02

/-- `COMP` must be 0 unless the opcode is 0x04 (R56). -/
def CommandFields.compOk (f : CommandFields) : Bool := !f.comp || f.opcode == 0x04

/-- The fields are those of a legal command word (R57). -/
def CommandFields.wf (f : CommandFields) : Bool := f.zeroOk && f.opcodeOk && f.mselOk && f.compOk

end Sys2Proof
end

