-- ==== Sys2Proof/Decode.lean ====
section
/-! DEFINITION. The decoder of spec/30_encoding.md R61, total on every word and rejecting by name, and after it the
encoder of the twelve legal words of R55. -/

namespace Sys2Proof

/-- Why a word is not a legal command (R57), or, for `wrongLength`, why some bytes are not a command word at all: there
is one command length, 32 bits (R53). -/
inductive DecodeError where
  | zeroFieldSet    -- a bit of 31:10 is set
  | mselNotUsed     -- MSEL = 1 with an opcode other than 0x01, 0x02
  | compNotUsed     -- COMP = 1 with an opcode other than 0x04
  | unknownOpcode   -- opcode 0x00, or 0x0A to 0xFF
  | wrongLength     -- not four bytes
deriving DecidableEq, Repr

/-- The fields of a word (R54). -/
def fieldsOf (w : Word) : CommandFields where
  opcode := w.extractLsb' 0 8
  msel := w.getLsbD 8
  comp := w.getLsbD 9
  zero := w.extractLsb' 10 22

/-- `MSEL` as a modulus choice (R54). -/
def modSelOfBit (b : Bool) : ModSel := if b then .order else .field

/-- `COMP` as a wire form (R54). -/
def pointFormOfBit (b : Bool) : PointForm := if b then .compressed else .uncompressed

/-- A command that uses `MSEL` only: `COMP` must be 0 (R61). -/
def decodeWithMsel (f : CommandFields) (i : ModSel → Instr) : Except DecodeError Instr :=
  if f.comp then .error .compNotUsed else .ok (i (modSelOfBit f.msel))

/-- A command that uses `COMP` only: `MSEL` must be 0 (R61). -/
def decodeWithComp (f : CommandFields) (i : PointForm → Instr) : Except DecodeError Instr :=
  if f.msel then .error .mselNotUsed else .ok (i (pointFormOfBit f.comp))

/-- A command with no option: both option bits must be 0 (R61). -/
def decodePlain (f : CommandFields) (i : Instr) : Except DecodeError Instr :=
  if f.comp then .error .compNotUsed else if f.msel then .error .mselNotUsed else .ok i

/-- The case analysis of R61 on the opcode. -/
def decodeOpcode (f : CommandFields) : Except DecodeError Instr :=
  match f.opcode.toNat with
  | 0x01 => decodeWithMsel f .modinv
  | 0x02 => decodeWithMsel f .modexp
  | 0x03 => decodePlain f .pdec
  | 0x04 => decodeWithComp f .penc
  | 0x05 => decodePlain f .pdbl
  | 0x06 => decodePlain f .padd
  | 0x07 => decodePlain f .pmul
  | 0x08 => decodePlain f .sign
  | 0x09 => decodePlain f .verify
  | _ => .error .unknownOpcode

/-- The fields of a word as a command (R61): bits 31:10 are tested first. -/
def decodeFields (f : CommandFields) : Except DecodeError Instr :=
  if f.zero = 0 then decodeOpcode f else .error .zeroFieldSet

/-- `decode` (R61): a function of the 32-bit word alone. -/
def decode (w : Word) : Except DecodeError Instr := decodeFields (fieldsOf w)

/-- A word's four bytes in the order of the register space, most significant first (R38). -/
def wordBytes (w : Word) : List Byte :=
  [w.extractLsb' 24 8, w.extractLsb' 16 8, w.extractLsb' 8 8, w.extractLsb' 0 8]

/-- The command in four bytes of the register space, lowest address first; any other number of bytes is rejected
(DESIGN CHOICE, notes/assumptions/14.md: safe). -/
def decodeBytes : List Byte → Except DecodeError Instr
  | [b0, b1, b2, b3] => decode (b0 ++ b1 ++ b2 ++ b3)
  | _ => .error .wrongLength

/-- The command in the first `nbits` bits of a table word, the bits above them 0. A command is one word, so the
table's numbering is the word's own. -/
def decodeTableWord (nbits w : Nat) : Option Instr :=
  if nbits ≤ 32 ∧ w < 2 ^ nbits then
    match decodeBytes (wordBytes (BitVec.ofNat 32 w)) with
    | .ok i => some i
    | .error _ => none
  else none

/-- The legal word of each command (the last columns of R55's table). -/
def encode : Instr → Word
  | .modinv .field => 0x00000001
  | .modinv .order => 0x00000101
  | .modexp .field => 0x00000002
  | .modexp .order => 0x00000102
  | .pdec => 0x00000003
  | .penc .uncompressed => 0x00000004
  | .penc .compressed => 0x00000204
  | .pdbl => 0x00000005
  | .padd => 0x00000006
  | .pmul => 0x00000007
  | .sign => 0x00000008
  | .verify => 0x00000009

end Sys2Proof
end

