-- ==== Sys2Proof/Machine/Port.lean ====
section
/-! DEFINITION. The host port (spec/20_memory.md): the address map, the two transactions RegRead and RegWrite, what
refuses them, and the issue of a command. -/

namespace Sys2Proof.Machine

/-- Why a transaction is refused. The host sees only `err = 1` (R36, R125; DEDUCED, notes/assumptions/10.md: safe). -/
inductive PortRefusal where
  | misaligned   -- R40
  | reserved     -- R41
  | readOnly     -- R42
  | busy         -- R45
deriving DecidableEq, Repr

/-- What an address names (R37): `j` counts the words of a register or of `PBUF`, word 0 at the lowest address. -/
inductive Target where
  | cmd
  | status
  | ctrl
  | plen
  | operand (r : OperandReg) (j : Nat)
  | result (r : ResultReg) (j : Nat)
  | pbuf (j : Nat)
deriving DecidableEq, Repr

/-- `base(REG)` of an operand register (R37). -/
def OperandReg.base : OperandReg → Nat
  | .a => 0x020
  | .e => 0x040
  | .px => 0x060
  | .py => 0x080
  | .qx => 0x0A0
  | .qy => 0x0C0
  | .k => 0x0E0
  | .d => 0x100
  | .z => 0x120
  | .sr => 0x140
  | .ss => 0x160

/-- `base(REG)` of a result register (R37). -/
def ResultReg.base : ResultReg → Nat
  | .rx => 0x180
  | .ry => 0x1A0

/-- The operand registers in the order of the map, 32 bytes each from 0x020 (R37). -/
def operandAt : Nat → OperandReg
  | 0 => .a
  | 1 => .e
  | 2 => .px
  | 3 => .py
  | 4 => .qx
  | 5 => .qy
  | 6 => .k
  | 7 => .d
  | 8 => .z
  | 9 => .sr
  | _ => .ss

/-- The address map (R37), with the refusals of R40 and R41. -/
def decodeAddr (addr : Addr) : Except PortRefusal Target :=
  let n := addr.toNat
  if n % 4 ≠ 0 then .error .misaligned
  else if n = 0x000 then .ok .cmd
  else if n = 0x004 then .ok .status
  else if n = 0x008 then .ok .ctrl
  else if n = 0x00C then .ok .plen
  else if n < 0x020 then .error .reserved
  else if n < 0x180 then .ok (.operand (operandAt ((n - 0x020) / 32)) (n % 32 / 4))
  else if n < 0x1A0 then .ok (.result .rx (n % 32 / 4))
  else if n < 0x1C0 then .ok (.result .ry (n % 32 / 4))
  else if n < 0x204 then .ok (.pbuf ((n - 0x1C0) / 4))
  else .error .reserved

/-- Word `j` of `PBUF`: byte 4j in bits 31:24 (R39). -/
def State.pbufWord (s : State) (j : Nat) : Word :=
  s.pbufByte (4 * j) ++ s.pbufByte (4 * j + 1) ++ s.pbufByte (4 * j + 2) ++ s.pbufByte (4 * j + 3)

/-- A write to word `j` of `PBUF`: all four bytes, but for word 16, where bytes 65 to 67 are padding (R39). -/
def State.setPbufWord (s : State) (j : Nat) (data : Word) : State :=
  { s with
    pbuf := s.pbuf.writeBytes (pbufAddr (4 * j)) (if j = 16 then [data.extractLsb' 24 8] else wordBytes data) }

/-- The current value of an addressed word (R43). -/
def readTarget (s : State) : Target → Word
  | .cmd => s.cmd
  | .status => statusWord s
  | .ctrl => ctrlWord s
  | .plen => plenWord s
  | .operand r j => regWord (s.operand r) j
  | .result r j => regWord (s.result r) j
  | .pbuf j => s.pbufWord j

/-- `RegRead(addr)` (R36, R43): performed in every phase, no side effect; a refused read answers 0 and `err = 1`. -/
def regRead (addr : Addr) (s : State) : State :=
  match decodeAddr addr with
  | .ok t => { s with resp := some (.read (readTarget s t) false) }
  | .error _ => { s with resp := some (.read 0 true) }

/-- Issue (R44): the word is stored; a legal command starts the engine, an illegal one is reported at once (R57). -/
def issue (data : Word) (s : State) : State :=
  match decode data with
  | .ok _ => { s with cmd := data, busy := true, done := false, err := okCode }
  | .error _ => takeFailure .illegalCommand { s with cmd := data }

/-- A write that is refused while a command is in flight (R45). -/
def whenIdle (s : State) (written : State) : Except PortRefusal State :=
  if s.busy then .error .busy else .ok written

/-- The effect of a write by its target (R44), or why it is refused (R42, R45). -/
def writeTarget (s : State) (data : Word) : Target → Except PortRefusal State
  | .cmd => whenIdle s (issue data s)
  | .status => .ok (if data.getLsbD 1 then acknowledge s else s)
  | .ctrl => .ok { s with ie := data.getLsbD 0 }
  | .plen => whenIdle s { s with plen := data.extractLsb' 0 7 }
  | .operand r j => whenIdle s (s.setOperand r (setRegWord (s.operand r) j data))
  | .result _ _ => .error .readOnly
  | .pbuf j => whenIdle s (s.setPbufWord j data)

/-- `RegWrite(addr, data)` (R36): performed, or refused with no change of state but the answer `err = 1`. -/
def regWrite (addr : Addr) (data : Word) (s : State) : State :=
  match decodeAddr addr with
  | .error _ => { s with resp := some (.write true) }
  | .ok t =>
    match writeTarget s data t with
    | .ok s' => { s' with resp := some (.write false) }
    | .error _ => { s with resp := some (.write true) }

/-- The byte the register space shows at a byte address, as the aligned word read there shows it (R38); none where no
word can be read. -/
def State.spaceByte (s : State) (n : Nat) : Option Byte :=
  match decodeAddr (BitVec.ofNat 10 (n / 4 * 4)) with
  | .ok t => (wordBytes (readTarget s t))[n % 4]?
  | .error _ => none

end Sys2Proof.Machine
end

