-- ==== Sys2Proof/Machine/Engine.lean ====
section
/-! DEFINITION. The four kinds of step (spec/70_reset_and_hazards.md R141). -/

namespace Sys2Proof.Machine

/-- The completion step (R117): enabled when a command is in flight, it decodes `CMD` again and runs the command. With
no command in flight the engine has no step, and its turn changes nothing (R142; DESIGN CHOICE,
notes/assumptions/8.md: safe). -/
def completionStep (s : State) : Host.Outcome State Fault Refusal :=
  if s.busy then
    match decode s.cmd with
    | .ok i => exec i s
    | .error _ => .fault .illegalInFlight
  else .next s

/-- Reset (R129): all state as after reset, a command in flight abandoned. What the host and the environment will do
next is not state of the block and stays (DESIGN CHOICE, notes/assumptions/7.md: safe). -/
def resetStep (s : State) : State := { State.reset with agenda := s.agenda }

/-- One step by its label (R141). -/
def performLabel (l : StepLabel) (s : State) : Host.Outcome State Fault Refusal :=
  match l with
  | .regRead addr => .next (regRead addr s)
  | .regWrite addr data => .next (regWrite addr data s)
  | .complete => completionStep s
  | .reset => .next (resetStep s)

/-- The machine's step: the next label of the agenda. With nothing left to come the engine has its turn, so that a
command in flight completes (R136) and a quiescent state stays as it is (R142). -/
def nextStep (s : State) : Host.Outcome State Fault Refusal :=
  match s.agenda with
  | [] => completionStep (beginStep [] s)
  | l :: rest => performLabel l (beginStep rest s)

/-- A command word as the next step's command: in flight in `CMD` with the engine's turn next, as its issue (R44)
leaves it; an illegal word cannot be in flight, so its write to `CMD` is next instead (DESIGN CHOICE,
notes/assumptions/3.md: safe). -/
def stageCommand (w : Word) (s : State) : State :=
  match decode w with
  | .ok _ => { s with cmd := w, busy := true, done := false, err := okCode, agenda := .complete :: s.agenda }
  | .error _ => { s with busy := false, agenda := .regWrite 0x000 w :: s.agenda }

end Sys2Proof.Machine
end

