-- ==== Sys2Proof/Machine/HostScript.lean ====
section
/-! DEFINITION. The host-script lines and pseudo-operations of spec/30_encoding.md R60, as the steps they stand for. A
host that decides by what it reads is a host outside the machine; here the values it writes are given (DESIGN CHOICE,
notes/assumptions/13.md). -/

namespace Sys2Proof.Machine

open Sys2Proof.Config

/-- `wr ADDR, WORD` -/
def wr (addr : Nat) (data : Word) : List StepLabel := [.regWrite (BitVec.ofNat 10 addr) data]

/-- `rd ADDR` -/
def rd (addr : Nat) : List StepLabel := [.regRead (BitVec.ofNat 10 addr)]

/-- `cmd MNEMONIC` -/
def cmd (i : Instr) : List StepLabel := wr 0x000 (encode i)

/-- `wait`: `polls` reads of `STATUS` that find BUSY = 1, the completion step, and the read that finds BUSY = 0. -/
def wait (polls : Nat) : List StepLabel := (List.replicate polls (rd 0x004)).flatten ++ .complete :: rd 0x004

/-- `ack` -/
def ackDone : List StepLabel := wr 0x004 0x00000002

/-- `reset` -/
def assertReset : List StepLabel := [.reset]

/-- `wr256 REG, V`: eight writes, most significant word first. -/
def wr256 (r : OperandReg) (v : Reg) : List StepLabel :=
  (List.range 8).flatMap fun j => wr (r.base + 4 * j) (regWord v j)

/-- `rd256 REG` of an operand register. -/
def rd256 (r : OperandReg) : List StepLabel := (List.range 8).flatMap fun j => rd (r.base + 4 * j)

/-- `rd256 REG` of a result register. -/
def rd256Result (r : ResultReg) : List StepLabel := (List.range 8).flatMap fun j => rd (r.base + 4 * j)

/-- Word `j` of a byte string, bytes past its end taken as 0x00. -/
def wordOfBytes (b : List Byte) (j : Nat) : Word :=
  b.getD (4 * j) 0 ++ b.getD (4 * j + 1) 0 ++ b.getD (4 * j + 2) 0 ++ b.getD (4 * j + 3) 0

/-- `wrbuf B`: the words of `B`, then its length to `PLEN`. -/
def wrbuf (b : List Byte) : List StepLabel :=
  ((List.range ((b.length + 3) / 4)).flatMap fun j => wr (pbufAddr (4 * j)) (wordOfBytes b j)) ++
    wr 0x00C (BitVec.ofNat 32 b.length)

/-- `rdbuf` of an encoded point of `len` bytes. -/
def rdbuf (len : Nat) : List StepLabel :=
  rd 0x00C ++ (List.range ((len + 3) / 4)).flatMap fun j => rd (pbufAddr (4 * j))

/-- `mov256 DST, SRC` from a result register that holds `v`. -/
def mov256 (dst : OperandReg) (src : ResultReg) (v : Reg) : List StepLabel := rd256Result src ++ wr256 dst v

/-- The host recipe for `generatePublicKey(d)`: `PMUL` with P = G and K = d (spec/70 R132). -/
def publicKeyRecipe (d : Reg) (polls : Nat) : List StepLabel :=
  wr256 .px (BitVec.ofNat 256 gX) ++ wr256 .py (BitVec.ofNat 256 gY) ++ wr256 .k d ++ cmd .pmul ++ wait polls

/-- The host recipe for a child public key (R132): `PMUL` with P = G and K = tweak, its result (x, y) copied to P, the
parent key in Q, then `PADD`. -/
def childPublicKeyRecipe (tweak x y parentX parentY : Reg) (polls : Nat) : List StepLabel :=
  publicKeyRecipe tweak polls ++ mov256 .px .rx x ++ mov256 .py .ry y ++ wr256 .qx parentX ++ wr256 .qy parentY ++
    cmd .padd ++ wait polls

end Sys2Proof.Machine
end

