-- ==== Sys2Proof/Machine/Pins.lean ====
section
/-! DEFINITION. The signal level (spec/20_memory.md R36, R48, spec/70_reset_and_hazards.md R129): which steps of R141 one
clock cycle is made of. The spec gives it only as the block's boundary; `step` does not use it. -/

namespace Sys2Proof.Machine

/-- The inputs in one clock cycle (R36, R129). -/
structure Pins where
  rst : Bool
  req : Bool
  we : Bool
  addr : Addr
  wdata : Word
deriving DecidableEq, Repr

/-- The outputs (R36): `rdata` and `err` answer this cycle's transaction; where there is none they are the model's
choice (DESIGN CHOICE, notes/assumptions/11.md). -/
structure PinsOut where
  rdata : Word
  err : Bool
  irq : Bool
deriving DecidableEq, Repr

/-- The steps of one cycle, in order. Reset takes the whole cycle (R129); a completion that falls in the cycle goes
before the port access (R48, D27). `finish` says that the command in flight, if any, completes in this cycle: the
open parameter `LAT` decides when (R137). -/
def cycleLabels (p : Pins) (finish : Bool) : List StepLabel :=
  if p.rst then [.reset]
  else
    (if finish then [.complete] else []) ++
      (if p.req then [if p.we then .regWrite p.addr p.wdata else .regRead p.addr] else [])

/-- The outputs of a cycle with inputs `p` whose steps ended in `s`. The spec gives `rdata` in a read and `err` in a
transaction (R36), and `irq` as a function of the state (R119). The rest is the model's (DESIGN CHOICE,
notes/assumptions/11.md: unsafe): in a cycle without a request `rdata` and `err` are 0, whatever was answered before;
in a write `rdata` is 0; a request in the cycle of reset, which R129 says is not performed, is answered `rdata` 0 and
`err` 0; and `irq` is that of the state the cycle ends in. -/
def pinsOut (p : Pins) (s : State) : PinsOut :=
  if p.req && !p.rst then
    match s.resp with
    | some (.read data err) => ⟨data, err, irq s⟩
    | some (.write err) => ⟨0, err, irq s⟩
    | none => ⟨0, false, irq s⟩
  else ⟨0, false, irq s⟩

end Sys2Proof.Machine
end

