-- ==== Sys2Proof/Safety.lean ====
section
/-! DEFINITION. What the spec says holds in every reachable state, and what a run is. -/

namespace Sys2Proof

open Sys2Proof.Machine

/-- `PBUF`'s storage: canonical, and nothing listed outside the 65 usable bytes, so that the padding bytes 65 to 67
read 0 (spec/10_state.md R18). -/
abbrev pbufOk (m : Memory) : Prop := m.wf ∧ ∀ c ∈ m, pbufAddr 0 ≤ c.1 ∧ c.1 ≤ pbufAddr 64

/-- The invariants of R21 and R117: while a command is in flight DONE and ERR are 0 and `CMD` is legal; a failed
outcome leaves the results 0; ERR is one of the codes 0 to 7; and `PBUF` as above. -/
structure Inv (s : State) : Prop where
  busyDone : s.busy = true → s.done = false
  busyErr : s.busy = true → s.err = 0
  busyLegal : s.busy = true → ∃ i, decode s.cmd = .ok i
  failedX : s.err ≠ 0 → s.rx = 0
  failedY : s.err ≠ 0 → s.ry = 0
  errCode : s.err.toNat ≤ 7
  pbuf : pbufOk s.pbuf

/-- The state after `k` steps, stopping at the first fault or refusal. -/
def runSteps (k : Nat) (s : State) : Host.Outcome State Fault Refusal :=
  match k with
  | 0 => .next s
  | k + 1 =>
    match step s with
    | .next s' => runSteps k s'
    | .fault r => .fault r
    | .refused r => .refused r

/-- No engine step is enabled: nothing changes until the host acts (R142). -/
def quiescent (s : State) : Bool := !s.busy

/-- A host program has ended: nothing of it is still to come, and the state is quiescent (R142). -/
def programEnded (s : State) : Bool := s.agenda.isEmpty && quiescent s

end Sys2Proof
end

