-- ==== Sys2Proof/Certificates/Slice0/Obligations.lean ====
section
/-! DEFINITION. The statements about the model, each from the numbered rules of the spec. The words of this first part
are theirs: what a word of the register space shows, what an instruction reads, what a host access is. -/

namespace Sys2Proof.Machine

open Sys2Proof.Config

/-- The engine has the next step: its turn is next on the agenda, or nothing else is to come. -/
abbrev enginesTurn (s : State) (rest : List StepLabel) : Prop :=
  s.agenda = .complete :: rest ∨ (s.agenda = [] ∧ rest = [])

/-- Which word stands at which byte address (spec/20_memory.md R37 to R39, spec/10_state.md R21, R22). -/
inductive ShowsWord (s : State) : Nat → Word → Prop where
  | cmd : ShowsWord s 0x000 s.cmd
  | status (w : Word) (busy : w.getLsbD 0 = s.busy) (done : w.getLsbD 1 = s.done) (err : w.extractLsb' 4 4 = s.err)
      (low : w.extractLsb' 2 2 = 0) (high : w.extractLsb' 8 24 = 0) : ShowsWord s 0x004 w
  | ctrl (w : Word) (ie : w.getLsbD 0 = s.ie) (high : w.extractLsb' 1 31 = 0) : ShowsWord s 0x008 w
  | plen (w : Word) (len : w.extractLsb' 0 7 = s.plen) (high : w.extractLsb' 7 25 = 0) : ShowsWord s 0x00C w
  | operand (r : OperandReg) (j : Nat) (hj : j < 8) :
      ShowsWord s (r.base + 4 * j) ((s.operand r).extractLsb' (224 - 32 * j) 32)
  | result (r : ResultReg) (j : Nat) (hj : j < 8) :
      ShowsWord s (r.base + 4 * j) ((s.result r).extractLsb' (224 - 32 * j) 32)
  | pbuf (j : Nat) (hj : j < 17) (w : Word)
      (bytes : ∀ i, i < 4 → w.extractLsb' (24 - 8 * i) 8 = s.pbufByte (4 * j + i)) : ShowsWord s (0x1C0 + 4 * j) w

/-- The addresses no word can be reached at: misaligned, or reserved (R40, R41). -/
def unreachableAddr (n : Nat) : Prop := n % 4 ≠ 0 ∨ (0x010 ≤ n ∧ n < 0x020) ∨ 0x204 ≤ n

/-- The twelve legal words and their commands (spec/30_encoding.md R55). -/
def legalWords : List (Word × Instr) :=
  [(0x00000001, .modinv .field), (0x00000101, .modinv .order), (0x00000002, .modexp .field),
   (0x00000102, .modexp .order), (0x00000003, .pdec), (0x00000004, .penc .uncompressed),
   (0x00000204, .penc .compressed), (0x00000005, .pdbl), (0x00000006, .padd), (0x00000007, .pmul),
   (0x00000008, .sign), (0x00000009, .verify)]

/-- The state a command that delivers two numbers ends in: the results written, the status of a success, nothing else
changed (R117). -/
def succeeds (s : State) (x y : Nat) : State :=
  { s with rx := BitVec.ofNat 256 x, ry := BitVec.ofNat 256 y, busy := false, done := true, err := 0 }

/-- The state a command that fails ends in: the results 0, the outcome code recorded, nothing else changed (R117). -/
def failsWith (s : State) (code : BitVec 4) : State :=
  { s with rx := 0, ry := 0, busy := false, done := true, err := code }

/-- The state a signing attempt with a valid key and nonce ends in, for the point `K·G` and the inverse `ki` of the
nonce modulo n (spec/43_ecdsa.md R99, R100). A failure of the multiplication is reported as it is. -/
def signEndsIn (s : State) (ki : Nat) : Except FailKind Point → State
  | .error kind => failsWith s kind.code
  | .ok p =>
    let r := p.x % nOrder
    let sig := ki * (s.z.toNat + r * s.d.toNat) % nOrder
    if r = 0 ∨ sig = 0 then failsWith s 6
    else succeeds s r (if 2 * sig > nOrder then nOrder - sig else sig)

/-- The registers a command reads hold the same values (spec/10_state.md R17, column "in"). -/
def sameInputs (s t : State) : Instr → Prop
  | .modinv _ => s.a = t.a
  | .modexp _ => s.a = t.a ∧ s.e = t.e
  | .pdec => (∀ i, i ≤ 64 → s.pbufByte i = t.pbufByte i) ∧ s.plen = t.plen
  | .penc _ => s.px = t.px ∧ s.py = t.py
  | .pdbl => s.px = t.px ∧ s.py = t.py
  | .padd => s.px = t.px ∧ s.py = t.py ∧ s.qx = t.qx ∧ s.qy = t.qy
  | .pmul => s.px = t.px ∧ s.py = t.py ∧ s.k = t.k
  | .sign => s.d = t.d ∧ s.z = t.z ∧ s.k = t.k
  | .verify => s.qx = t.qx ∧ s.qy = t.qy ∧ s.z = t.z ∧ s.sr = t.sr ∧ s.ss = t.ss

/-- The outcome codes a command can complete with (spec/60_exceptions.md R112, the cells that are not blank). -/
def possibleCodes : Instr → List (BitVec 4)
  | .modinv _ => [0, 4]
  | .modexp _ => [0]
  | .pdec => [0, 2]
  | .penc _ => [0]
  | .pdbl => [0, 3]
  | .padd => [0, 3, 4]
  | .pmul => [0, 1, 3, 4]
  | .sign => [0, 1, 3, 4, 6]
  | .verify => [0, 5]

/-- A port access, the only kind of step the host takes (R141). -/
def StepLabel.isHost : StepLabel → Bool
  | .regRead _ => true
  | .regWrite _ _ => true
  | .complete => false
  | .reset => false

/-- Canonical coordinates on the curve `y² ≡ x³ + 7 (mod p)` (spec/00_scope.md R2, glossary). -/
def onCurve (p : Point) : Prop :=
  p.x < pField ∧ p.y < pField ∧ p.y ^ 2 % pField = (p.x ^ 3 + 7) % pField

/-- secp256k1 as the library's curves: `y² = x³ + 7` over the integers modulo `P_FIELD` (R2). -/
def secp256k1 : WeierstrassCurve.Affine (ZMod pField) := ⟨0, 0, 0, 0, 7⟩

/-- The point of the curve's group that a pair of coordinates stands for. -/
def StandsFor (p : Point) (g : secp256k1.Point) : Prop :=
  ∃ h : secp256k1.Nonsingular (p.x : ZMod pField) (p.y : ZMod pField), g = .some _ _ h

end Sys2Proof.Machine

open Sys2Proof Sys2Proof.Machine Sys2Proof.Config

/-! ### Reset and invariants -/

/-- R27: after reset every piece of state of R13 is 0, and so are what STATUS and CTRL read and the interrupt line. -/
def Obligations.ResetLeavesEveryRegisterZero : Prop :=
  ∀ t : State, t = { State.reset with agenda := t.agenda } →
    (∀ r, t.operand r = 0) ∧ t.rx = 0 ∧ t.ry = 0 ∧ (∀ i, i ≤ 67 → t.pbufByte i = 0) ∧ t.plen = 0 ∧ t.cmd = 0 ∧
    t.busy = false ∧ t.done = false ∧ t.err = 0 ∧ statusWord t = 0 ∧ t.ie = false ∧ ctrlWord t = 0 ∧ irq t = false

/-- R129: reset is enabled in every state, whatever is in flight, and every piece of state takes its reset value; the
command in flight never completes: the engine's next turn changes nothing. A port access in the same cycle is not
performed. That the steps still to come stay, and that the engine's turn with nothing in flight changes nothing, are
the model's choices (notes/assumptions/7.md, 8.md). -/
def Obligations.ResetAbandonsTheCommandInFlight : Prop :=
  (∀ (s : State) (rest : List StepLabel), s.agenda = .reset :: rest →
    step s = .next { State.reset with agenda := rest } ∧
    ∀ rest', rest = .complete :: rest' → runSteps 2 s = .next { State.reset with agenda := rest' }) ∧
  (∀ (p : Pins) (finish : Bool), p.rst = true → cycleLabels p finish = [.reset])

/-- The invariants of R21 and R18 hold after reset. -/
def Obligations.InvariantHoldsAfterReset : Prop := Inv State.reset

/-- Every step keeps the invariants of R21 (a command in flight has DONE = 0, ERR = 0; a failed outcome has zero
results; ERR is a code), the legality of the command in flight (R117), and the form of the point buffer with its
padding bytes 0 (R18). -/
def Obligations.StepKeepsInvariant : Prop :=
  ∀ s t : State, Inv s → step s = .next t → Inv t

/-- R141: every step is total: where the invariants hold the machine never stops. -/
def Obligations.StepNeverStops : Prop :=
  ∀ s : State, Inv s → ∃ t, step s = .next t

/-- The only stop: a command in flight whose word is not legal, when the engine's turn comes (notes/assumptions/4.md:
the model's own choice, in a state R117 says cannot be). -/
def Obligations.OnlyAnIllegalWordInFlightStops : Prop :=
  ∀ (s : State) (r : Fault), step s = .fault r ↔
    r = .illegalInFlight ∧ s.busy = true ∧ (∀ i, decode s.cmd ≠ .ok i) ∧ ∃ rest, enginesTurn s rest

/-! ### Encoding -/

/-- R55: a command word is legal exactly when it is one of the twelve words, and it is then that word's command. -/
def Obligations.LegalWordsAreTheTwelve : Prop :=
  ∀ (w : Word) (i : Instr), decode w = .ok i ↔ (w, i) ∈ legalWords

/-- The case analysis of R61 and the field conditions of R57 accept the same words. -/
def Obligations.DecoderAgreesWithFieldChecks : Prop :=
  ∀ w : Word, (∃ i, decode w = .ok i) ↔ (fieldsOf w).wf = true

/-- Decode and encode agree for every command, on the word, on its four bytes (for every word, legal or not), and in
the numbering of the opcode table. -/
def Obligations.DecodeOfEncode : Prop :=
  (∀ i : Instr, decode (encode i) = .ok i ∧ decodeTableWord 32 (encode i).toNat = some i) ∧
  (∀ w : Word, decodeBytes (wordBytes w) = decode w)

/-- Words written out from the table of R55 and the list of R57, and what they decode to. -/
def Obligations.WordsOfTheTableDecode : Prop :=
  decode 0x00000101 = .ok (.modinv .order) ∧ decode 0x00000002 = .ok (.modexp .field) ∧
  decode 0x00000003 = .ok .pdec ∧ decode 0x00000204 = .ok (.penc .compressed) ∧ decode 0x00000006 = .ok .padd ∧
  decode 0x00000009 = .ok .verify ∧ decode 0x00000000 = .error .unknownOpcode ∧
  decode 0x0000000A = .error .unknownOpcode ∧ decode 0x00000103 = .error .mselNotUsed ∧
  decode 0x00000201 = .error .compNotUsed ∧ decode 0x80000001 = .error .zeroFieldSet

/-! ### The port -/

/-- R43, with the map of R37 and the byte order of R38 and R39: a read answers the word that stands at the address, in
every phase, and changes nothing. -/
def Obligations.ReadAnswersTheWordAndChangesNothing : Prop :=
  ∀ (s : State) (rest : List StepLabel) (n : Nat) (w : Word), ShowsWord s n w →
    s.agenda = .regRead (BitVec.ofNat 10 n) :: rest →
    step s = .next { s with agenda := rest, resp := some (.read w false) }

/-- R40, R41, R42: an access to a misaligned or reserved address, and a write to RX or RY, busy or not, changes no
state; a refused read answers 0, and both answer err = 1; a read of RX or RY is performed. -/
def Obligations.RefusedAccessesChangeNothing : Prop :=
  ∀ (s : State) (rest : List StepLabel) (addr : Addr) (data : Word),
    (unreachableAddr addr.toNat → s.agenda = .regRead addr :: rest →
      step s = .next { s with agenda := rest, resp := some (.read 0 true) }) ∧
    ((unreachableAddr addr.toNat ∨ 0x180 ≤ addr.toNat ∧ addr.toNat < 0x1C0) → s.agenda = .regWrite addr data :: rest →
      step s = .next { s with agenda := rest, resp := some (.write true) }) ∧
    (0x180 ≤ addr.toNat → addr.toNat < 0x1C0 → addr.toNat % 4 = 0 → s.agenda = .regRead addr :: rest →
      ∃ w, step s = .next { s with agenda := rest, resp := some (.read w false) })

/-- R45: while a command is in flight a write to CMD, PLEN, an operand word or a PBUF word changes no state and answers
err = 1; writes to STATUS and CTRL are performed as ever, and so are all reads. -/
def Obligations.BusyWritesAreRefused : Prop :=
  ∀ (s : State) (rest : List StepLabel) (addr : Addr) (data : Word), s.busy = true →
    s.agenda = .regWrite addr data :: rest →
    ((addr = 0x000 ∨ addr = 0x00C ∨ (addr.toNat % 4 = 0 ∧ 0x020 ≤ addr.toNat ∧ addr.toNat < 0x180) ∨
        (addr.toNat % 4 = 0 ∧ 0x1C0 ≤ addr.toNat ∧ addr.toNat < 0x204)) →
      step s = .next { s with agenda := rest, resp := some (.write true) }) ∧
    (addr = 0x004 →
      step s = .next { s with
        done := if data.getLsbD 1 then false else s.done, agenda := rest, resp := some (.write false) }) ∧
    (addr = 0x008 → step s = .next { s with ie := data.getLsbD 0, agenda := rest, resp := some (.write false) }) ∧
    (∀ n w, ShowsWord s n w → step { s with agenda := .regRead (BitVec.ofNat 10 n) :: rest } =
      .next { s with agenda := rest, resp := some (.read w false) })

/-- R44, operand register word, not busy: the addressed 32 bits are replaced, the other 224 bits and everything else
stay. -/
def Obligations.IdleOperandWriteReplacesOneWord : Prop :=
  ∀ (s : State) (rest : List StepLabel) (r : OperandReg) (j : Nat) (data : Word), s.busy = false → j < 8 →
    s.agenda = .regWrite (BitVec.ofNat 10 (r.base + 4 * j)) data :: rest →
    ∃ t, step s = .next t ∧ regWord (t.operand r) j = data ∧
      (∀ j', j' < 8 → j' ≠ j → regWord (t.operand r) j' = regWord (s.operand r) j') ∧
      (∀ r', r' ≠ r → t.operand r' = s.operand r') ∧
      t = { s with
        a := t.a, e := t.e, px := t.px, py := t.py, qx := t.qx, qy := t.qy, k := t.k, d := t.d, z := t.z, sr := t.sr,
        ss := t.ss, agenda := rest, resp := some (.write false) }

/-- R39, PBUF word, not busy: word j ≤ 15 writes its four bytes; word 16 writes byte 64 and ignores the other three;
every other byte and everything else stays. -/
def Obligations.IdlePbufWriteReplacesItsBytes : Prop :=
  ∀ (s : State) (rest : List StepLabel) (j : Nat) (data : Word), s.busy = false → s.pbuf.wf → j ≤ 16 →
    s.agenda = .regWrite (BitVec.ofNat 10 (0x1C0 + 4 * j)) data :: rest →
    ∃ t, step s = .next t ∧
      (∀ i, i < 4 → 4 * j + i ≤ 64 → t.pbufByte (4 * j + i) = data.extractLsb' (24 - 8 * i) 8) ∧
      (∀ n, (n < pbufAddr (4 * j) ∨ pbufAddr (4 * j + 3) < n ∨ pbufAddr 64 < n) → t.pbuf.read n = s.pbuf.read n) ∧
      t = { s with pbuf := t.pbuf, agenda := rest, resp := some (.write false) }

/-- R44, PLEN not busy, and CTRL and STATUS in any phase: PLEN takes bits 6:0, IE takes bit 0, DONE is cleared where
bit 1 is 1, and nothing else changes. -/
def Obligations.WritesToPlenCtrlStatus : Prop :=
  ∀ (s : State) (rest : List StepLabel) (data : Word),
    (s.busy = false → s.agenda = .regWrite 0x00C data :: rest →
      step s = .next { s with plen := data.setWidth 7, agenda := rest, resp := some (.write false) }) ∧
    (s.agenda = .regWrite 0x008 data :: rest →
      step s = .next { s with ie := data.getLsbD 0, agenda := rest, resp := some (.write false) }) ∧
    (s.agenda = .regWrite 0x004 data :: rest →
      step s = .next { s with
        done := s.done && !data.getLsbD 1, agenda := rest, resp := some (.write false) })

/-- R120: the host's acknowledge clears DONE, and ERR, the results, PBUF and PLEN stay readable. -/
def Obligations.AcknowledgeKeepsTheOutcome : Prop :=
  ∀ (s : State) (rest : List StepLabel), s.agenda = ackDone ++ rest →
    ∃ t, step s = .next t ∧ t.done = false ∧ irq t = false ∧ t.err = s.err ∧ t.rx = s.rx ∧ t.ry = s.ry ∧
      t.plen = s.plen ∧ (∀ n, t.pbuf.read n = s.pbuf.read n) ∧ t.busy = s.busy ∧ t.ie = s.ie ∧ t.cmd = s.cmd ∧
      (∀ r, t.operand r = s.operand r)

/-- R44, issue: a legal word written to CMD while not busy is stored and starts the engine, with DONE and ERR 0; the
results and everything else keep their values until the completion step. It does not depend on DONE or ERR. -/
def Obligations.IssueOfALegalWord : Prop :=
  ∀ (s : State) (rest : List StepLabel) (i : Instr), s.busy = false → s.agenda = cmd i ++ rest →
    step s = .next { s with
      cmd := encode i, busy := true, done := false, err := 0, agenda := rest, resp := some (.write false) }

/-- R57: every word but the twelve is illegal, that is, opcode 0 or above 9, a bit of 31:10 set, MSEL = 1 with an
opcode other than 1 and 2, or COMP = 1 with an opcode other than 4. Written to CMD while not busy it does not start the
engine; in the same step DONE <- 1, ERR <- 7, RX <- 0, RY <- 0, the word is stored, nothing else changes, and with
IE = 1 the interrupt line is up. While busy it is refused like any other word. -/
def Obligations.IllegalWordIsReportedAtOnce : Prop :=
  (∀ w : Word, (∀ i, (w, i) ∉ legalWords) ↔
    (w.extractLsb' 0 8 = 0 ∨ 0x0A ≤ (w.extractLsb' 0 8).toNat ∨ w.extractLsb' 10 22 ≠ 0 ∨
      (w.getLsbD 8 = true ∧ w.extractLsb' 0 8 ≠ 1 ∧ w.extractLsb' 0 8 ≠ 2) ∨
      (w.getLsbD 9 = true ∧ w.extractLsb' 0 8 ≠ 4))) ∧
  (∀ (s : State) (rest : List StepLabel) (w : Word), (∀ i, (w, i) ∉ legalWords) →
    s.agenda = .regWrite 0x000 w :: rest →
    (s.busy = false → ∃ t, step s = .next t ∧
      t = { s with
        cmd := w, busy := false, done := true, err := 7, rx := 0, ry := 0, agenda := rest,
        resp := some (.write false) } ∧ irq t = s.ie) ∧
    (s.busy = true → step s = .next { s with agenda := rest, resp := some (.write true) }))

/-- R47: a read answers the word most recently written: eight word writes to an operand register (`wr256` of R60) leave
that value in it and nothing else changed, and reading its words gives them back. -/
def Obligations.EightWordWritesSetTheRegister : Prop :=
  ∀ (s : State) (rest : List StepLabel) (r : OperandReg) (v : Reg), s.busy = false →
    s.agenda = wr256 r v ++ rest →
    runSteps 8 s = .next { s.setOperand r v with agenda := rest, resp := some (.write false) } ∧
    (s.setOperand r v).operand r = v ∧
    ∀ j, j < 8 → ∀ rest', rest = rd (r.base + 4 * j) ++ rest' →
      runSteps 9 s = .next { s.setOperand r v with agenda := rest', resp := some (.read (regWord v j) false) }

/-- R38: the 32 bytes at a register's address are `be32` of it, and those at 0x1C0 + i are `PBUF[i]`; so the two
coordinates of P, of Q, the two parts of a signature to verify and the two results each read as one 64-byte string. -/
def Obligations.RegisterSpaceIsBigEndian : Prop :=
  ∀ s : State,
    (∀ (r : OperandReg) (i : Nat), i < 32 → s.spaceByte (r.base + i) = (be32 (s.operand r))[i]?) ∧
    (∀ (r : ResultReg) (i : Nat), i < 32 → s.spaceByte (r.base + i) = (be32 (s.result r))[i]?) ∧
    (∀ i, i < 68 → s.spaceByte (0x1C0 + i) = some (s.pbufByte i)) ∧
    (∀ i, i < 64 → s.spaceByte (0x060 + i) = (be32 s.px ++ be32 s.py)[i]? ∧
      s.spaceByte (0x0A0 + i) = (be32 s.qx ++ be32 s.qy)[i]? ∧
      s.spaceByte (0x140 + i) = (be32 s.sr ++ be32 s.ss)[i]? ∧
      s.spaceByte (0x180 + i) = (be32 s.rx ++ be32 s.ry)[i]?)

/-- R76: `be32` gives 32 bytes, byte i being bits 255−8i to 248−8i; `from_be` is the sum of the bytes weighted by
powers of 256; and the two are inverse bijections. -/
def Obligations.ByteConversionsAreInverse : Prop :=
  (∀ v : Reg, (be32 v).length = 32 ∧ (∀ i, i < 32 → (be32 v)[i]? = some (v.extractLsb' (248 - 8 * i) 8)) ∧
    fromBe (be32 v) = v.toNat) ∧
  (∀ c : List Byte, c.length = 32 →
    fromBe c = ((List.range 32).map fun i => (c.getD i 0).toNat * 256 ^ (31 - i)).sum ∧
    fromBe c < 2 ^ 256 ∧ be32 (BitVec.ofNat 256 (fromBe c)) = c)

/-! ### The completion step -/

/-- When a command is in flight, its word is legal and the engine's turn comes, the step is that command's meaning, with
the turn taken off the agenda and no port answer (R117, R61). The second clause is the model's own choice and no rule
of the spec (notes/assumptions/3.md): a word placed by `withFetchWord` is run by the very next step. That an empty
agenda is the engine's turn is the choice of notes/assumptions/1.md. -/
def Obligations.StepRunsTheCommandInFlight : Prop :=
  (∀ (s : State) (rest : List StepLabel) (i : Instr), s.busy = true → decode s.cmd = .ok i → enginesTurn s rest →
    step s = exec i { s with agenda := rest, resp := none }) ∧
  (∀ (s : State) (w : Nat) (i : Instr), decodeTableWord 32 w = some i →
    step (s.withFetchWord 32 w) = exec i { s with
      cmd := BitVec.ofNat 32 w, busy := true, done := false, err := 0, resp := none })

/-- In a quiescent state the engine's turn changes nothing but the model's own agenda and answer. R142 says that no engine
step is enabled there; that such a turn may be on the agenda and is then empty is the model's choice
(notes/assumptions/8.md). When a host program has ended, every further step leaves the whole state as it is, but for
the answer of the last access, which is gone: those steps are the engine's turns of an empty agenda, the model's
choice of notes/assumptions/1.md. A state with a command in flight is not an end (R142). -/
def Obligations.QuiescentStateStays : Prop :=
  (∀ (s : State) (rest : List StepLabel), quiescent s = true → enginesTurn s rest →
    step s = .next { s with agenda := rest, resp := none }) ∧
  (∀ s : State, programEnded s = true → ∀ k, runSteps (k + 1) s = .next { s with resp := none }) ∧
  (∀ s : State, s.busy = true → programEnded s = false)

/-- R117, what every completion does: the command ends with DONE = 1 and a code 0 to 7; on a non-zero code the results
are 0; the interrupt line is up exactly when IE is 1 (R119). -/
def Obligations.EveryCompletionEndsTheCommand : Prop :=
  ∀ (i : Instr) (s : State), ∃ t, exec i s = .next t ∧ t.busy = false ∧ t.done = true ∧ t.err.toNat ≤ 7 ∧
    (t.err ≠ 0 → t.rx = 0 ∧ t.ry = 0) ∧ irq t = s.ie

/-- The frame of every command but PENC (R14, R17, R117): all operand registers, CMD, CTRL, PLEN and every byte of
PBUF are unchanged, the key, the nonce and the hash among them (R140). -/
def Obligations.CommandsLeaveOperandsAndBuffer : Prop :=
  ∀ (i : Instr) (s t : State), (∀ f, i ≠ .penc f) → exec i s = .next t →
    (∀ r, t.operand r = s.operand r) ∧ t.cmd = s.cmd ∧ t.ie = s.ie ∧ t.plen = s.plen ∧
    (∀ n, t.pbuf.read n = s.pbuf.read n) ∧ t.agenda = s.agenda ∧ t.resp = s.resp

/-- The frame of PENC (R17, R81): the operand registers, RX, RY, CMD and CTRL are unchanged, and so is every byte
outside the 68 bytes it stores to, which begin at the address of `PBUF[0]`. -/
def Obligations.PencLeavesRegistersAndResults : Prop :=
  ∀ (f : PointForm) (s t : State), s.pbuf.wf → exec (.penc f) s = .next t →
    (∀ r, t.operand r = s.operand r) ∧ t.rx = s.rx ∧ t.ry = s.ry ∧ t.cmd = s.cmd ∧ t.ie = s.ie ∧
    (∀ n, (n < pbufAddr 0 ∨ pbufAddr 0 + pbufSize ≤ n) → t.pbuf.read n = s.pbuf.read n) ∧
    t.agenda = s.agenda ∧ t.resp = s.resp

/-- R112: the outcome codes each command can complete with. (SIGN's codes 3 and 4, which R112 calls unreachable, are
not excluded here.) -/
def Obligations.OutcomeCodesOfEachCommand : Prop :=
  ∀ (i : Instr) (s : State), ∃ t, exec i s = .next t ∧ t.err ∈ possibleCodes i

/-- R8 with the table of R17: the outcome of a command, its code and the values it writes, depends only on the command
and its input registers. -/
def Obligations.OutcomeDependsOnInputsOnly : Prop :=
  ∀ (i : Instr) (s t : State), s.pbuf.wf → t.pbuf.wf → sameInputs s t i →
    ∃ s' t', exec i s = .next s' ∧ exec i t = .next t' ∧ s'.err = t'.err ∧
      ((∀ f, i ≠ .penc f) → s'.rx = t'.rx ∧ s'.ry = t'.ry) ∧
      (∀ f, i = .penc f → s'.plen = t'.plen ∧ ∀ j, j ≤ 67 → s'.pbufByte j = t'.pbufByte j)

/-- R141: port accesses between issue and completion do not change what a command does: `complete` after any number of
them gives the same RX, RY, PBUF, PLEN and ERR as `complete` at once. That the order of the steps is the list the
agenda holds is the model's choice (notes/assumptions/1.md). -/
def Obligations.CompletionIgnoresInterleavedAccesses : Prop :=
  ∀ (s : State) (i : Instr) (accesses rest : List StepLabel), s.busy = true → decode s.cmd = .ok i →
    (∀ l ∈ accesses, l.isHost = true) → s.agenda = accesses ++ .complete :: rest →
    ∃ t t', exec i s = .next t ∧ runSteps (accesses.length + 1) s = .next t' ∧
      t'.rx = t.rx ∧ t'.ry = t.ry ∧ t'.pbuf = t.pbuf ∧ t'.plen = t.plen ∧ t'.err = t.err ∧
      t'.busy = false ∧ t'.done = true ∧ t'.cmd = s.cmd ∧ (∀ r, t'.operand r = s.operand r) ∧ t'.agenda = rest

/-- Every command completes (R136), in the form the model's choice of notes/assumptions/1.md gives it: from any state
with a legal command in flight and no reset to come, whatever the host does, the completion step is taken after at
most as many steps as the agenda holds, because the engine has its turn when nothing else is to come (the fairness R136
assumes). It writes what the command would have written at once: ERR, RX, RY, PBUF and PLEN. -/
def Obligations.EveryCommandCompletes : Prop :=
  ∀ (s : State) (i : Instr), s.busy = true → decode s.cmd = .ok i → (∀ l ∈ s.agenda, l ≠ .reset) →
    ∃ k t t' u, k ≤ s.agenda.length ∧ runSteps k s = .next t ∧ t.busy = true ∧ t.cmd = s.cmd ∧
      step t = .next t' ∧ t'.busy = false ∧ t'.done = true ∧ exec i s = .next u ∧
      t'.err = u.err ∧ t'.rx = u.rx ∧ t'.ry = u.ry ∧ t'.pbuf = u.pbuf ∧ t'.plen = u.plen

/-- R48 at the signal level: a completion that falls in the same cycle as a port access, a read or a write at any
address, goes first. The access is then the one it would be in the completed state `u`, performed or refused, where
BUSY is 0: a read answers the word of `u`, results and status among them; a write to CMD, STATUS, CTRL, PLEN, an
operand or PBUF word is performed; and a legal word written to CMD is issued. -/
def Obligations.CompletionGoesBeforeTheAccess : Prop :=
  ∀ (s : State) (p : Pins) (i : Instr), p.rst = false → p.req = true → s.busy = true → decode s.cmd = .ok i →
    s.agenda = cycleLabels p true →
    ∃ t u, exec i s = .next u ∧ u.busy = false ∧ runSteps 2 s = .next t ∧
      step { u with agenda := [if p.we then .regWrite p.addr p.wdata else .regRead p.addr] } = .next t ∧
      (p.we = false → ∀ n w, p.addr = BitVec.ofNat 10 n → ShowsWord u n w →
        (pinsOut p t).rdata = w ∧ (pinsOut p t).err = false ∧ t = { u with agenda := [], resp := some (.read w false) }) ∧
      (p.we = true → p.addr.toNat % 4 = 0 →
        (p.addr.toNat < 0x010 ∨ (0x020 ≤ p.addr.toNat ∧ p.addr.toNat < 0x180) ∨
          (0x1C0 ≤ p.addr.toNat ∧ p.addr.toNat < 0x204)) → (pinsOut p t).err = false) ∧
      (p.we = true → p.addr = 0x000 → ∀ j, decode p.wdata = .ok j →
        t = { u with
          cmd := p.wdata, busy := true, done := false, err := 0, agenda := [], resp := some (.write false) })

/-! ### Modular arithmetic -/

/-- R69: MODINV fails with NotInvertible exactly when the gcd is not 1, which is when A is 0 or the modulus; otherwise
it gives the inverse x, with 1 ≤ x ≤ m − 1, and inverting x gives A modulo m. -/
def Obligations.ModinvGivesTheInverse : Prop :=
  ∀ (sel : ModSel) (s : State),
    (Nat.gcd (s.a.toNat % mselMod sel) (mselMod sel) ≠ 1 ↔ s.a.toNat = 0 ∨ s.a.toNat = mselMod sel) ∧
    (s.a.toNat = 0 ∨ s.a.toNat = mselMod sel → exec (.modinv sel) s = .next (failsWith s 4)) ∧
    (s.a.toNat ≠ 0 → s.a.toNat ≠ mselMod sel →
      ∃ x, 1 ≤ x ∧ x ≤ mselMod sel - 1 ∧ s.a.toNat * x % mselMod sel = 1 ∧
        exec (.modinv sel) s = .next (succeeds s x 0) ∧
        ∀ s' : State, s'.a.toNat = x →
          exec (.modinv sel) s' = .next (succeeds s' (s.a.toNat % mselMod sel) 0))

/-- R70: MODEXP always succeeds with the exact power of the whole exponent, reduced; A^0 is 1 for every A. -/
def Obligations.ModexpGivesThePower : Prop :=
  ∀ (sel : ModSel) (s : State),
    exec (.modexp sel) s = .next (succeeds s (s.a.toNat ^ s.e.toNat % mselMod sel) 0)

/-- R67: the inverse `inv` answers, also for a negative argument, is the one in [0, m), and it fails, as
NotInvertible, exactly when the gcd is not 1, which for these moduli is when m divides the argument. -/
def Obligations.InvIsTheInverseInRange : Prop :=
  ∀ (a : Int) (sel : ModSel),
    (∀ x, inv a (mselMod sel) = .ok x ↔ x < mselMod sel ∧ a * x % (mselMod sel : Int) = 1) ∧
    (∀ kind, inv a (mselMod sel) = .error kind ↔ kind = .notInvertible ∧ Int.gcd a (mselMod sel) ≠ 1) ∧
    (Int.gcd a (mselMod sel) ≠ 1 ↔ (mselMod sel : Int) ∣ a)

/-! ### The codec -/

/-- R80 with R77 and R78: PDEC accepts exactly length 65 with 0x04 and length 33 with 0x02 or 0x03; it returns the
coordinates as they stand in the buffer, and for a compressed point the candidate root with the lead byte's parity,
checking nothing about the point. -/
def Obligations.PdecDecodesThePoint : Prop :=
  ∀ s : State,
    let x := fromBe (s.pbufBytes 1 32)
    let root := (x ^ 3 + 7) ^ ((pField + 1) / 4) % pField
    (s.plen = 65 ∧ s.pbufByte 0 = 0x04 → exec .pdec s = .next (succeeds s x (fromBe (s.pbufBytes 33 32)))) ∧
    (s.plen = 33 ∧ s.pbufByte 0 = 0x02 →
      exec .pdec s = .next (succeeds s x (if root % 2 = 0 then root else pField - root))) ∧
    (s.plen = 33 ∧ s.pbufByte 0 = 0x03 →
      exec .pdec s = .next (succeeds s x (if root % 2 = 1 then root else pField - root))) ∧
    (¬(s.plen = 65 ∧ s.pbufByte 0 = 0x04) → ¬(s.plen = 33 ∧ (s.pbufByte 0 = 0x02 ∨ s.pbufByte 0 = 0x03)) →
      exec .pdec s = .next (failsWith s 2))

/-- R81 with R79: PENC always succeeds; PLEN and all 68 bytes of PBUF are written, the lead byte, the coordinates most
significant byte first, and 0 after them; RX and RY are not written. -/
def Obligations.PencEncodesThePoint : Prop :=
  ∀ s : State, s.pbuf.wf →
    (∃ t, exec (.penc .uncompressed) s = .next t ∧ t.pbufByte 0 = 0x04 ∧
      (∀ i, i < 32 → t.pbufByte (1 + i) = s.px.extractLsb' (248 - 8 * i) 8 ∧
        t.pbufByte (33 + i) = s.py.extractLsb' (248 - 8 * i) 8) ∧
      (∀ i, 65 ≤ i → i ≤ 67 → t.pbufByte i = 0) ∧
      t = { s with pbuf := t.pbuf, plen := 65, busy := false, done := true, err := 0 }) ∧
    (∃ t, exec (.penc .compressed) s = .next t ∧ t.pbufByte 0 = (if s.py.getLsbD 0 then 0x03 else 0x02) ∧
      (∀ i, i < 32 → t.pbufByte (1 + i) = s.px.extractLsb' (248 - 8 * i) 8) ∧
      (∀ i, 33 ≤ i → i ≤ 67 → t.pbufByte i = 0) ∧
      t = { s with pbuf := t.pbuf, plen := 33, busy := false, done := true, err := 0 })

/-- R83: encoding a point and decoding it gives the coordinates back: for the uncompressed form always, for the
compressed form when the point is on the curve and y is canonical and not 0. -/
def Obligations.EncodeThenDecodeIsIdentity : Prop :=
  ∀ (s : State) (f : PointForm), s.pbuf.wf →
    (f = .compressed → 1 ≤ s.py.toNat ∧ s.py.toNat < pField ∧
      s.py.toNat ^ 2 % pField = (s.px.toNat ^ 3 + 7) % pField) →
    ∃ t u, exec (.penc f) s = .next t ∧ exec .pdec t = .next u ∧ u.err = 0 ∧ u.rx = s.px ∧ u.ry = s.py

/-! ### Point arithmetic -/

/-- R89 with R86: PDBL fails with PointAtInfinityUndefined exactly when PY is 0 or p, tested first; otherwise it gives
the tangent formula's point, with i the inverse of 2y modulo p. -/
def Obligations.PdblDoublesThePoint : Prop :=
  ∀ s : State,
    (s.py.toNat % pField = 0 ↔ s.py.toNat = 0 ∨ s.py.toNat = pField) ∧
    (s.py.toNat % pField = 0 → exec .pdbl s = .next (failsWith s 3)) ∧
    (s.py.toNat % pField ≠ 0 → ∃ i < pField, 2 * s.py.toNat * i % pField = 1 ∧
      let lam : Int := 3 * (s.px.toNat : Int) * s.px.toNat * i % pField
      let x' : Int := (lam * lam - 2 * s.px.toNat) % pField
      let y' : Int := (lam * (s.px.toNat - x') - s.py.toNat) % pField
      exec .pdbl s = .next (succeeds s x'.toNat y'.toNat))

/-- R90 with R87: PADD, in the order tested: equal register values are doubled; equal x with different y fails with
PointAtInfinityUndefined; x equal modulo p only fails with NotInvertible; otherwise the chord formula's point, with i
the inverse of xP − xQ modulo p. -/
def Obligations.PaddAddsThePoints : Prop :=
  ∀ s : State,
    (s.px = s.qx ∧ s.py = s.qy → exec .padd s = exec .pdbl s) ∧
    (s.px = s.qx ∧ s.py ≠ s.qy → exec .padd s = .next (failsWith s 3)) ∧
    (s.px ≠ s.qx ∧ ((s.px.toNat : Int) - s.qx.toNat) % pField = 0 → exec .padd s = .next (failsWith s 4)) ∧
    (s.px ≠ s.qx ∧ ((s.px.toNat : Int) - s.qx.toNat) % pField ≠ 0 →
      ∃ i : Nat, i < pField ∧ ((s.px.toNat : Int) - s.qx.toNat) * i % pField = 1 ∧
      let lam : Int := ((s.py.toNat : Int) - s.qy.toNat) * i % pField
      let x' : Int := (lam * lam - s.px.toNat - s.qx.toNat) % pField
      let y' : Int := (lam * (s.px.toNat - x') - s.py.toNat) % pField
      exec .padd s = .next (succeeds s x'.toNat y'.toNat))

/-- R88 as a recursion on the multiplier: 0 is an invalid scalar; 1 gives the point as it is; 2k doubles the result
for k, 2k + 1 doubles it and adds P to that, and the first failure is the failure of the whole (R96). -/
def Obligations.PointMulIsDoubleAndAdd : Prop :=
  ∀ p : Point, pointMul p 0 = .error .invalidScalarRange ∧ pointMul p 1 = .ok p ∧
    ∀ k, 1 ≤ k → pointMul p (2 * k) = (pointMul p k).bind pointDouble ∧
      pointMul p (2 * k + 1) = ((pointMul p k).bind pointDouble).bind (pointAdd · p)

/-- R91 with R88: PMUL completes with the value of double-and-add, or with the failure of the first inner step that
fails: K = 0 is InvalidScalarRange, K = 1 delivers P exactly as given, and K ≥ n is no error of its own. -/
def Obligations.PmulDeliversTheMultiple : Prop :=
  ∀ s : State,
    (s.k = 0 → exec .pmul s = .next (failsWith s 1)) ∧
    (s.k = 1 → exec .pmul s = .next (succeeds s s.px.toNat s.py.toNat)) ∧
    (∀ p, pointMul ⟨s.px.toNat, s.py.toNat⟩ s.k.toNat = .ok p → exec .pmul s = .next (succeeds s p.x p.y)) ∧
    (∀ kind, pointMul ⟨s.px.toNat, s.py.toNat⟩ s.k.toNat = .error kind →
      exec .pmul s = .next (failsWith s kind.code) ∧
      (kind = .invalidScalarRange ∧ s.k = 0 ∨ kind = .pointAtInfinityUndefined ∨ kind = .notInvertible))

/-- R93: every coordinate PDBL and PADD deliver is below p, and so is every one PMUL delivers for K ≥ 2. -/
def Obligations.PointResultsAreCanonical : Prop :=
  ∀ (i : Instr) (s t : State), (i = .pdbl ∨ i = .padd ∨ (i = .pmul ∧ 2 ≤ s.k.toNat)) → exec i s = .next t →
    t.rx.toNat < pField ∧ t.ry.toNat < pField

/-- R92: non-canonical operands are neither rejected nor reduced first: `(x, y)` and `(x + p, y)` are not equal and give
NotInvertible; `(x, y)` and `(x, y + p)` give PointAtInfinityUndefined; doubling `(x, p)` gives
PointAtInfinityUndefined. -/
def Obligations.NonCanonicalOperandsAreNotReduced : Prop :=
  ∀ s : State,
    (s.qx.toNat = s.px.toNat + pField → exec .padd s = .next (failsWith s 4)) ∧
    (s.qx = s.px → s.qy.toNat = s.py.toNat + pField → exec .padd s = .next (failsWith s 3)) ∧
    (s.py.toNat = pField → exec .pdbl s = .next (failsWith s 3))

/-- The formulas of R87 are the group law of the curve (the spec's general knowledge G5): for canonical points on the
curve PADD delivers the sum, and reports PointAtInfinityUndefined exactly when the sum is the point at infinity. -/
def Obligations.PaddIsTheGroupLaw : Prop :=
  ∀ [Fact (Nat.Prime pField)] (s t : State), onCurve s.pointP → onCurve s.pointQ → exec .padd s = .next t →
    ∃ g h, StandsFor s.pointP g ∧ StandsFor s.pointQ h ∧
      (t.err = 0 → onCurve ⟨t.rx.toNat, t.ry.toNat⟩ ∧ StandsFor ⟨t.rx.toNat, t.ry.toNat⟩ (g + h)) ∧
      (t.err ≠ 0 → t.err = 3 ∧ g + h = 0)

/-- What PMUL delivers for a canonical point on the curve is that multiple of the point in the curve's group (G5). -/
def Obligations.PmulIsTheScalarMultiple : Prop :=
  ∀ [Fact (Nat.Prime pField)] (s t : State), onCurve s.pointP → exec .pmul s = .next t → t.err = 0 →
    ∃ g, StandsFor s.pointP g ∧ StandsFor ⟨t.rx.toNat, t.ry.toNat⟩ (s.k.toNat • g)

/-- For P = G and a valid scalar PMUL never fails: no inner step meets the point at infinity (R96, G5). -/
def Obligations.PublicKeyNeverFails : Prop :=
  ∀ s : State, s.px.toNat = gX → s.py.toNat = gY → validScalar s.k.toNat →
    ∃ t, exec .pmul s = .next t ∧ t.err = 0 ∧ onCurve ⟨t.rx.toNat, t.ry.toNat⟩

/-! ### ECDSA -/

/-- R101 with R99: SIGN, in the order tested: a key outside [1, n − 1] is InvalidScalarRange whatever the nonce; a
nonce outside it is Resample; then, with ki the inverse of the nonce, the outcome for the point K·G: r = 0 or s = 0 is
Resample, and otherwise r and the low one of s and n − s are delivered. -/
def Obligations.SignIsOneAttempt : Prop :=
  ∀ s : State,
    (¬ validScalar s.d.toNat → exec .sign s = .next (failsWith s 1)) ∧
    (validScalar s.d.toNat → ¬ validScalar s.k.toNat → exec .sign s = .next (failsWith s 6)) ∧
    (validScalar s.d.toNat → validScalar s.k.toNat → ∃ ki < nOrder, s.k.toNat * ki % nOrder = 1 ∧
      exec .sign s = .next (signEndsIn s ki (pointMul generator s.k.toNat)))

/-- R100, R101: a signature that SIGN delivers has 1 ≤ r ≤ n − 1 and 1 ≤ s ≤ (n − 1)/2. -/
def Obligations.SignatureIsLowS : Prop :=
  ∀ s t : State, exec .sign s = .next t → t.err = 0 →
    1 ≤ t.rx.toNat ∧ t.rx.toNat ≤ nOrder - 1 ∧ 1 ≤ t.ry.toNat ∧ t.ry.toNat ≤ (nOrder - 1) / 2

/-- R102, R103: VERIFY accepts, with RX = 1 and code 0, exactly when r and s are below n, s is invertible modulo n, no
inner point step fails, and the x of `u1·G + u2·Q` is r modulo n; everything else is InvalidSignature. High s is
accepted like any other (R106). -/
def Obligations.VerifyAcceptsExactly : Prop :=
  ∀ s : State,
    let accepts : Prop := s.sr.toNat < nOrder ∧ s.ss.toNat < nOrder ∧
      ∃ w a b p, w < nOrder ∧ s.ss.toNat * w % nOrder = 1 ∧
        pointMul generator (s.z.toNat * w % nOrder) = .ok a ∧
        pointMul ⟨s.qx.toNat, s.qy.toNat⟩ (s.sr.toNat * w % nOrder) = .ok b ∧ pointAdd a b = .ok p ∧
        p.x % nOrder = s.sr.toNat
    (accepts → exec .verify s = .next (succeeds s 1 0)) ∧
    (¬ accepts → exec .verify s = .next (failsWith s 5))

/-- R102 (a) to (c), conflict C2: a signature with r = 0, s = 0, a part of n or more, or on a hash that is 0 modulo n is
always rejected. -/
def Obligations.VerifyRejectsDegenerateInputs : Prop :=
  ∀ s : State, (s.sr = 0 ∨ s.ss = 0 ∨ nOrder ≤ s.sr.toNat ∨ nOrder ≤ s.ss.toNat ∨ s.z.toNat % nOrder = 0) →
    exec .verify s = .next (failsWith s 5)

/-- R108: a signature that SIGN delivers verifies under the public key `point_mul(G, D)`, for every key, nonce and hash
with hash ≢ 0 modulo n. -/
def Obligations.SignedMessagesVerify : Prop :=
  ∀ (s v t : State) (q : Point), exec .sign s = .next t → t.err = 0 → s.z.toNat % nOrder ≠ 0 →
    pointMul generator s.d.toNat = .ok q → v.qx.toNat = q.x → v.qy.toNat = q.y → v.z = s.z → v.sr = t.rx →
    v.ss = t.ry → exec .verify v = .next (succeeds v 1 0)
end

