-- ==== Sys2Proof/Laws/Decode.lean ====
section
/-! SUPPORT. The fields of a word determine it, and `wordBytes` followed by reassembly is the word. -/

namespace Sys2Proof

/-- The words with these fields are one word (R54: the four fields cover all 32 bits). -/
theorem eq_of_fieldsOf_eq {w v : Word} (h : fieldsOf w = fieldsOf v) : w = v := by
  simp only [fieldsOf, CommandFields.mk.injEq] at h
  obtain ⟨h1, h2, h3, h4⟩ := h
  ext i hi
  simp only [← BitVec.getLsbD_eq_getElem]
  rcases Nat.lt_or_ge i 8 with hl | hl
  · simpa [BitVec.getLsbD_extractLsb', hl] using congrArg (fun x => x.getLsbD i) h1
  · rcases Nat.lt_or_ge i 10 with hm | hm
    · obtain rfl | rfl : i = 8 ∨ i = 9 := by omega
      · exact h2
      · exact h3
    · have := congrArg (fun x => x.getLsbD (i - 10)) h4
      simpa [BitVec.getLsbD_extractLsb', show i - 10 < 22 by omega, show 10 + (i - 10) = i by omega] using this

/-- A word put together from its bytes is itself. -/
theorem append_wordBytes (w : Word) :
    w.extractLsb' 24 8 ++ w.extractLsb' 16 8 ++ w.extractLsb' 8 8 ++ w.extractLsb' 0 8 = w := by
  ext i hi
  simp only [← BitVec.getLsbD_eq_getElem, BitVec.getLsbD_append, BitVec.getLsbD_extractLsb']
  rcases Nat.lt_or_ge i 8 with h | h
  · simp [h]
  · rcases Nat.lt_or_ge i 16 with h' | h'
    · simp [show ¬ i < 8 by omega, show i - 8 < 8 by omega, show 8 + (i - 8) = i by omega]
    · rcases Nat.lt_or_ge i 24 with h'' | h''
      · simp [show ¬ i < 8 by omega, show ¬ i - 8 < 8 by omega, show i - 8 - 8 < 8 by omega,
          show 16 + (i - 8 - 8) = i by omega]
      · simp [show ¬ i < 8 by omega, show ¬ i - 8 < 8 by omega, show ¬ i - 8 - 8 < 8 by omega,
          show i - 8 - 8 - 8 < 8 by omega, show 24 + (i - 8 - 8 - 8) = i by omega]

/-- The bytes of a word put together from four bytes, most significant first. -/
theorem wordBytes_append (a b c d : Byte) : wordBytes (a ++ b ++ c ++ d) = [a, b, c, d] := by
  have take : ∀ (x : BitVec 32) (y : Byte) (n : Nat), (∀ k, k < 8 → x.getLsbD (n + k) = y.getLsbD k) →
      x.extractLsb' n 8 = y := fun x y n h => by
    ext k hk
    simp only [← BitVec.getLsbD_eq_getElem, BitVec.getLsbD_extractLsb', hk, decide_true, Bool.true_and]
    exact h k hk
  simp only [wordBytes, List.cons.injEq, and_true]
  refine ⟨take _ a 24 ?_, take _ b 16 ?_, take _ c 8 ?_, take _ d 0 ?_⟩ <;> intro k hk
  · simp only [BitVec.getLsbD_append, show ¬ 24 + k < 8 by omega, show ¬ 24 + k - 8 < 8 by omega,
      show ¬ 24 + k - 8 - 8 < 8 by omega, if_false, show 24 + k - 8 - 8 - 8 = k by omega]
  · simp only [BitVec.getLsbD_append, show ¬ 16 + k < 8 by omega, show ¬ 16 + k - 8 < 8 by omega, if_false,
      show 16 + k - 8 - 8 = k by omega, hk, if_true]
  · simp only [BitVec.getLsbD_append, show ¬ 8 + k < 8 by omega, if_false, show 8 + k - 8 = k by omega, hk, if_true]
  · simp only [BitVec.getLsbD_append, Nat.zero_add, hk, if_true]

/-! ### What each form of decoding accepts (R61) -/

theorem decodeWithMsel_eq_ok {f : CommandFields} {mk : ModSel → Instr} {i : Instr} :
    decodeWithMsel f mk = .ok i ↔ f.comp = false ∧ mk (modSelOfBit f.msel) = i := by
  unfold decodeWithMsel; split <;> simp_all

theorem decodeWithComp_eq_ok {f : CommandFields} {mk : PointForm → Instr} {i : Instr} :
    decodeWithComp f mk = .ok i ↔ f.msel = false ∧ mk (pointFormOfBit f.comp) = i := by
  unfold decodeWithComp; split <;> simp_all

theorem decodePlain_eq_ok {f : CommandFields} {i i' : Instr} :
    decodePlain f i = .ok i' ↔ f.comp = false ∧ f.msel = false ∧ i = i' := by
  unfold decodePlain; split <;> (try split) <;> simp_all

theorem decodeFields_eq_ok {f : CommandFields} {i : Instr} :
    decodeFields f = .ok i ↔ f.zero = 0 ∧ decodeOpcode f = .ok i := by
  unfold decodeFields; split <;> simp_all

end Sys2Proof
end

