-- ==== Sys2Proof/Laws/Memory.lean ====
section
/-! SUPPORT. The byte storage: read after write, a write leaves every other address alone, every operation keeps the
canonical form, and two canonical storages that read alike are equal. -/

namespace Sys2Proof.Machine

namespace Memory

theorem read_nil (a : Nat) : read [] a = unlisted := rfl

/-- Below the first listed address nothing is listed. -/
theorem read_of_lt : ∀ {m : Memory} {a : Nat}, (∀ c ∈ m, a < c.1) → read m a = unlisted
  | [], _, _ => rfl
  | (b, v) :: m, a, h => by
    have hb : a < b := h (b, v) (by simp)
    rw [read, if_neg (by omega)]
    exact read_of_lt fun c hc => h c (by simp [hc])

theorem wf_nil : wf [] := by decide

theorem wf_cons {c : Host.Cell} {m : Memory} : wf (c :: m) ↔ c.2 ≠ 0 ∧ (∀ x ∈ m, c.1 < x.1) ∧ wf m := by
  simp only [wf, List.pairwise_cons, List.forall_mem_cons]
  tauto

/-- The addresses a write can list: the old ones and the written one. -/
theorem mem_write {m : Memory} {a : Nat} {v : Byte} {c : Host.Cell} (h : c ∈ write m a v) :
    c ∈ m ∨ c = (a, v) ∧ v ≠ 0 := by
  induction m with
  | nil =>
    simp only [write] at h
    split at h
    · simp at h
    · next hv => exact .inr ⟨by simpa using h, hv⟩
  | cons x m ih =>
    obtain ⟨b, w⟩ := x
    simp only [write] at h
    split at h
    · split at h
      · exact .inl h
      · next hv => rcases List.mem_cons.1 h with rfl | h
                   · exact .inr ⟨rfl, hv⟩
                   · exact .inl h
    · split at h
      · split at h
        · exact .inl (List.mem_cons_of_mem _ h)
        · next hv => rcases List.mem_cons.1 h with rfl | h
                     · exact .inr ⟨rfl, hv⟩
                     · exact .inl (List.mem_cons_of_mem _ h)
      · rcases List.mem_cons.1 h with rfl | h
        · exact .inl List.mem_cons_self
        · exact (ih h).imp_left (List.mem_cons_of_mem _)

/-- A write keeps the canonical form. -/
theorem wf_write {m : Memory} (h : wf m) (a : Nat) (v : Byte) : wf (write m a v) := by
  induction m with
  | nil =>
    simp only [write]
    split
    · exact wf_nil
    · next hv => exact wf_cons.2 ⟨hv, by simp, wf_nil⟩
  | cons x m ih =>
    obtain ⟨b, w⟩ := x
    obtain ⟨hw, hlt, hm⟩ := wf_cons.1 h
    simp only [write]
    split
    · next hab =>
      split
      · exact h
      · next hv =>
        refine wf_cons.2 ⟨hv, fun c hc => ?_, h⟩
        rcases List.mem_cons.1 hc with rfl | hc
        · exact hab
        · exact hab.trans (hlt c hc)
    · split
      · next hab =>
        subst hab
        split
        · exact hm
        · next hv => exact wf_cons.2 ⟨hv, hlt, hm⟩
      · refine wf_cons.2 ⟨hw, fun c hc => ?_, ih hm⟩
        rcases mem_write hc with hc | ⟨rfl, -⟩
        · exact hlt c hc
        · show b < a; omega

/-- Read after write: the written address gives the written byte, every other address what it gave before. -/
theorem read_write {m : Memory} (h : wf m) (a : Nat) (v : Byte) (a' : Nat) :
    read (write m a v) a' = if a' = a then v else read m a' := by
  induction m with
  | nil =>
    simp only [write]
    split
    · next hv => split <;> simp_all [read]
    · simp [read]
  | cons x m ih =>
    obtain ⟨b, w⟩ := x
    obtain ⟨-, hlt, hm⟩ := wf_cons.1 h
    simp only [write]
    split
    · next hab =>
      split
      · next hv =>
        split
        · next he =>
          subst he hv
          refine read_of_lt fun c hc => ?_
          rcases List.mem_cons.1 hc with rfl | hc
          · exact hab
          · exact hab.trans (hlt c hc)
        · rfl
      · simp only [read]
    · split
      · next hab =>
        subst hab
        split
        · next hv =>
          by_cases he : a' = a
          · subst he hv
            rw [if_pos rfl]
            exact read_of_lt hlt
          · simp [read, he]
        · by_cases he : a' = a <;> simp [read, he]
      · next hab hne =>
        simp only [read, ih hm]
        by_cases he : a' = b
        · subst he
          simp [Ne.symm hne]
        · simp [he]

/-- A canonical storage is determined by what its addresses read as. -/
theorem eq_of_read_eq {m m' : Memory} (h : wf m) (h' : wf m') (hr : ∀ a, read m a = read m' a) : m = m' := by
  induction m generalizing m' with
  | nil =>
    cases m' with
    | nil => rfl
    | cons y m' =>
      have := hr y.1
      rw [read_nil, read, if_pos rfl] at this
      exact absurd this.symm (wf_cons.1 h').1
  | cons x m ih =>
    obtain ⟨hx, hlt, hm⟩ := wf_cons.1 h
    cases m' with
    | nil =>
      have := hr x.1
      rw [read_nil, read, if_pos rfl] at this
      exact absurd this hx
    | cons y m' =>
      obtain ⟨hy, hlt', hm'⟩ := wf_cons.1 h'
      have hxy : x.1 = y.1 := by
        rcases lt_trichotomy x.1 y.1 with hl | he | hl
        · have := hr x.1
          rw [read, if_pos rfl, read_of_lt (m := y :: m') fun c hc => by
            rcases List.mem_cons.1 hc with rfl | hc
            · exact hl
            · exact hl.trans (hlt' c hc)] at this
          exact absurd this hx
        · exact he
        · have := hr y.1
          rw [read_of_lt (m := x :: m) (fun c hc => by
            rcases List.mem_cons.1 hc with rfl | hc
            · exact hl
            · exact hl.trans (hlt c hc)), read, if_pos rfl] at this
          exact absurd this.symm hy
      have hv : x.2 = y.2 := by
        have := hr x.1
        rwa [read, read, if_pos rfl, if_pos hxy] at this
      refine List.cons_eq_cons.2 ⟨Prod.ext hxy hv, ih hm hm' fun a => ?_⟩
      have := hr a
      rw [read, read, hxy] at this
      by_cases ha : a = y.1
      · rw [read_of_lt (m := m) fun c hc => by rw [ha, ← hxy]; exact hlt c hc,
          read_of_lt (m := m') fun c hc => by rw [ha]; exact hlt' c hc]
      · simpa [ha] using this

/-! ### Runs of bytes -/

theorem wf_writeBytes {m : Memory} (h : wf m) (a : Nat) (vs : List Byte) : wf (writeBytes m a vs) := by
  induction vs generalizing m a with
  | nil => exact h
  | cons v vs ih => exact ih (wf_write h a v) (a + 1)

/-- A run of bytes is written where it is written, and nowhere else. -/
theorem read_writeBytes {m : Memory} (h : wf m) (a : Nat) (vs : List Byte) (a' : Nat) :
    read (writeBytes m a vs) a' = if a ≤ a' ∧ a' < a + vs.length then vs.getD (a' - a) 0 else read m a' := by
  induction vs generalizing m a with
  | nil => simp [writeBytes]
  | cons v vs ih =>
    rw [writeBytes, ih (wf_write h a v), read_write h, List.length_cons]
    rcases lt_trichotomy a' a with hl | rfl | hl
    · rw [if_neg (by omega), if_neg (by omega), if_neg (by omega)]
    · rw [if_neg (by omega), if_pos rfl, if_pos (by omega)]; simp
    · have : a' - a = a' - (a + 1) + 1 := by omega
      rw [if_neg (by omega : ¬ a' = a), this, List.getD_cons_succ]
      by_cases hb : a' < a + (vs.length + 1)
      · rw [if_pos (by omega), if_pos (by omega)]
      · rw [if_neg (by omega), if_neg (by omega)]

/-- What a run of bytes can list. -/
theorem mem_writeBytes {m : Memory} {a : Nat} {vs : List Byte} {c : Host.Cell} (h : c ∈ writeBytes m a vs) :
    c ∈ m ∨ ∃ i, i < vs.length ∧ c = (a + i, vs.getD i 0) ∧ c.2 ≠ 0 := by
  induction vs generalizing m a with
  | nil => exact .inl h
  | cons v vs ih =>
    rcases ih h with h | ⟨i, hi, rfl, hne⟩
    · rcases mem_write h with h | ⟨rfl, hv⟩
      · exact .inl h
      · exact .inr ⟨0, by simp, by simp, hv⟩
    · exact .inr ⟨i + 1, by simpa using hi, by simp [Nat.add_assoc, Nat.add_comm 1 i], hne⟩

end Memory

end Sys2Proof.Machine
end

