-- ==== Sys2Proof/Laws/Modular.lean ====
section
/-! SUPPORT. What `modulo`, `powmod` and `inv` compute: their values as the spec defines them (spec/40_modular.md R65,
R67, R68), so that no proof unfolds their loops. -/

namespace Sys2Proof.Machine

open Sys2Proof.Config

/-! ### `mod` -/

theorem modulo_lt (a : Int) {m : Nat} (hm : 0 < m) : modulo a m < m := by
  have h1 := Int.emod_nonneg a (by omega : (m : Int) ≠ 0)
  have h2 := Int.emod_lt_of_pos a (by omega : (0 : Int) < m)
  unfold modulo; omega

theorem modulo_cast (a : Int) {m : Nat} (hm : 0 < m) : (modulo a m : Int) = a % m :=
  Int.toNat_of_nonneg (Int.emod_nonneg a (by omega))

theorem modulo_natCast (a m : Nat) : modulo (a : Int) m = a % m := by
  unfold modulo; exact_mod_cast Int.toNat_natCast (a % m)

theorem modulo_modulo (a : Int) (m : Nat) : modulo (modulo a m : Nat) m = modulo a m := by
  rcases Nat.eq_zero_or_pos m with rfl | hm
  · rw [modulo_natCast]; simp
  · rw [modulo_natCast, Nat.mod_eq_of_lt (modulo_lt a hm)]

theorem modulo_eq_iff {a b : Int} {m : Nat} (hm : 0 < m) : modulo a m = modulo b m ↔ a ≡ b [ZMOD m] := by
  rw [Int.ModEq, ← modulo_cast a hm, ← modulo_cast b hm, Nat.cast_inj]

theorem modulo_eq_zero_iff (a : Int) {m : Nat} (hm : 0 < m) : modulo a m = 0 ↔ (m : Int) ∣ a := by
  rw [Int.dvd_iff_emod_eq_zero, ← modulo_cast a hm]; simp

/-! ### The constants -/

theorem pField_pos : 0 < pField := by decide
theorem nOrder_pos : 0 < nOrder := by decide
theorem mselMod_gt_one (sel : ModSel) : 1 < mselMod sel := by cases sel <;> decide
theorem mselMod_lt (sel : ModSel) : mselMod sel < 2 ^ 256 := by cases sel <;> decide
theorem pField_lt : pField < 2 ^ 256 := by decide
theorem nOrder_lt : nOrder < 2 ^ 256 := by decide

/-! ### `powmod` -/

theorem lt_two_pow_bitlen (k : Nat) : k < 2 ^ bitlen k := by
  unfold bitlen
  split
  · omega
  · exact Nat.lt_log2_self

theorem two_pow_le_of_bitlen {k : Nat} (hk : k ≠ 0) : 2 ^ (bitlen k - 1) ≤ k := by
  simpa [bitlen, hk] using Nat.log2_self_le hk

theorem div_pow_succ_bit (e i : Nat) : e / 2 ^ i = 2 * (e / 2 ^ (i + 1)) + bit e i := by
  rw [bit, pow_succ, ← Nat.div_div_eq_div_mul]; omega

theorem bit_lt_two (e i : Nat) : bit e i < 2 := Nat.mod_lt _ (by decide)

/-- The loop invariant of square-and-multiply: the accumulator is the power by the bits already read. -/
theorem powmodLoop_eq (b e m : Nat) : ∀ i acc, acc = b ^ (e / 2 ^ i) % m → powmodLoop b e m i acc = b ^ e % m
  | 0, acc, h => by simpa [powmodLoop] using h
  | i + 1, acc, h => by
    rw [powmodLoop]
    apply powmodLoop_eq b e m i
    have hsq : acc * acc % m = b ^ (2 * (e / 2 ^ (i + 1))) % m := by
      rw [h, ← Nat.mul_mod, ← pow_add, ← two_mul]
    rw [div_pow_succ_bit e i]
    rcases Nat.lt_succ_iff_lt_or_eq.1 (bit_lt_two e i) with h0 | h1
    · obtain h0 : bit e i = 0 := by omega
      simp [h0, hsq]
    · simp only [h1, if_true, hsq, pow_succ]
      rw [Nat.mod_mul_mod]

theorem powmodLoop_bitlen (b e m : Nat) : powmodLoop b e m (bitlen e) (1 % m) = b ^ e % m := by
  apply powmodLoop_eq
  rw [Nat.div_eq_of_lt (lt_two_pow_bitlen e), pow_zero]

/-- `powmod` is the exact power, reduced (R68). -/
theorem powmod_eq (b : Int) (e : Nat) {m : Nat} (hm : 0 < m) : powmod b e m = modulo (b ^ e) m := by
  rw [powmod, powmodLoop_bitlen, ← modulo_natCast, modulo_eq_iff hm]
  push_cast
  apply Int.ModEq.pow
  rw [modulo_cast b hm]
  exact Int.mod_modEq b m

theorem powmod_natCast (b e : Nat) {m : Nat} (hm : 0 < m) : powmod (b : Int) e m = b ^ e % m := by
  rw [powmod_eq _ _ hm, ← modulo_natCast]; push_cast; rfl

/-! ### `inv` -/

/-- The loop invariant of the extended Euclidean algorithm, with fuel for the product of the remainders. -/
theorem euclidLoop_spec (a m : Int) : ∀ (f r0 r1 : Nat) (t0 t1 : Int), r1 < r0 → r0 * r1 < 2 ^ f →
    (r0 : Int) ≡ t0 * a [ZMOD m] → (r1 : Int) ≡ t1 * a [ZMOD m] →
    (Nat.gcd r0 r1 : Int) ≡ euclidLoop (f + 1) r0 r1 t0 t1 * a [ZMOD m]
  | f, r0, r1, t0, t1, hlt, hf, h0, h1 => by
    rw [euclidLoop]
    split
    · next hz => subst hz; simpa using h0
    · next hnz =>
      have hpos : 0 < r1 := Nat.pos_of_ne_zero hnz
      have hmod := Nat.mod_lt r0 hpos
      have hdm := Nat.div_add_mod r0 r1
      have hq : 1 ≤ r0 / r1 := (Nat.one_le_div_iff hpos).2 hlt.le
      have hhalf : 2 * (r0 % r1) ≤ r0 := by nlinarith
      cases f with
      | zero => simp at hf; omega
      | succ f =>
        rw [Nat.gcd_comm, Nat.gcd_rec, Nat.gcd_comm]
        apply euclidLoop_spec a m f r1 (r0 % r1) _ _ hmod _ h1
        · have : ((r0 % r1 : Nat) : Int) = r0 - (r0 / r1 : Nat) * r1 := by
            have : (r1 : Int) * (r0 / r1 : Nat) + (r0 % r1 : Nat) = r0 := by exact_mod_cast hdm
            linarith
          rw [this, sub_mul, mul_assoc]
          exact h0.sub (h1.mul_left _)
        · rw [pow_succ] at hf; nlinarith

theorem gcd_modulo_eq_one_of_inverse {a x : Int} {m : Nat} (hm : 1 < m) (h : a * x % m = 1) :
    Nat.gcd (modulo a m) m = 1 := by
  have h1 : ((modulo a m : Nat) : Int) * x ≡ 1 [ZMOD m] := by
    rw [modulo_cast a (by omega)]
    calc a % m * x ≡ a * x [ZMOD m] := (Int.mod_modEq a m).mul_right x
      _ ≡ 1 [ZMOD m] := by
        rw [Int.ModEq, h, Int.emod_eq_of_lt (by norm_num) (by exact_mod_cast hm)]
  obtain ⟨c, hc⟩ := h1.dvd
  have hcop : IsCoprime ((modulo a m : Nat) : Int) (m : Int) := ⟨x, c, by linarith⟩
  exact Nat.isCoprime_iff_coprime.1 hcop

theorem two_pow_mul_self_le (n : Nat) : 2 ^ n * 2 ^ n ≤ 2 ^ (2 * n + 1) := by
  rw [← pow_add]
  exact Nat.pow_le_pow_right (by decide) (by omega)

/-- `inv` answers exactly the inverse in [0, m) (R67). -/
theorem inv_eq_ok_iff (a : Int) {m x : Nat} (hm : 1 < m) (hm' : m < 2 ^ 256) :
    inv a m = .ok x ↔ x < m ∧ a * x % m = 1 := by
  have hm0 : 0 < m := by omega
  -- what the loop gives, when the gcd is 1
  have key : Nat.gcd (modulo a m) m = 1 →
      a * (modulo (euclidLoop euclidFuel m (modulo a m) 0 1) m : Nat) % m = 1 := fun hg => by
    have hb := modulo_lt a hm0
    have hspec := euclidLoop_spec (modulo a m : Nat) m 513 m (modulo a m) 0 1 hb
      (by calc m * modulo a m ≤ m * m := Nat.mul_le_mul_left _ hb.le
            _ < 2 ^ 256 * 2 ^ 256 := Nat.mul_lt_mul_of_lt_of_lt hm' hm'
            _ ≤ 2 ^ 513 := two_pow_mul_self_le 256)
      (by simp [Int.modEq_zero_iff_dvd.2 (dvd_refl (m : Int))]) (by simp)
    rw [Nat.gcd_comm, hg] at hspec
    have : a * (modulo (euclidLoop euclidFuel m (modulo a m) 0 1) m : Nat) ≡ 1 [ZMOD m] := by
      rw [modulo_cast _ hm0]
      refine Int.ModEq.trans (Int.ModEq.mul_left a (Int.mod_modEq _ _)) (Int.ModEq.symm ?_)
      refine hspec.trans ?_
      rw [mul_comm, modulo_cast a hm0]
      exact (Int.mod_modEq a m).mul_right _
    rw [this, Int.emod_eq_of_lt (by norm_num) (by exact_mod_cast hm)]
  constructor
  · intro h
    unfold inv at h
    split at h
    · cases h
    · next hg =>
      cases h
      exact ⟨modulo_lt _ hm0, key (not_not.1 hg)⟩
  · rintro ⟨hx, h⟩
    have hg := gcd_modulo_eq_one_of_inverse hm h
    have hk := key hg
    simp only [inv, hg, ne_eq, not_true_eq_false, if_false, Except.ok.injEq]
    -- the inverse in [0, m) is unique
    set y := modulo (euclidLoop euclidFuel m (modulo a m) 0 1) m with hy
    have hyx : (y : Int) ≡ x [ZMOD m] := by
      have e1 : a * y ≡ 1 [ZMOD m] := by rw [Int.ModEq, hk, Int.emod_eq_of_lt (by norm_num) (by exact_mod_cast hm)]
      have e2 : a * x ≡ 1 [ZMOD m] := by rw [Int.ModEq, h, Int.emod_eq_of_lt (by norm_num) (by exact_mod_cast hm)]
      calc (y : Int) = y * 1 := by ring
        _ ≡ y * (a * x) [ZMOD m] := e2.symm.mul_left _
        _ = (a * y) * x := by ring
        _ ≡ 1 * x [ZMOD m] := e1.mul_right _
        _ = x := by ring
    have := Int.natCast_modEq_iff.1 hyx
    rwa [Nat.ModEq, Nat.mod_eq_of_lt (modulo_lt _ hm0), Nat.mod_eq_of_lt hx] at this

/-- `inv` fails exactly when `gcd(mod(a, m), m) ≠ 1`, and only as `NotInvertible` (R67). -/
theorem inv_eq_error_iff (a : Int) (m : Nat) (kind : FailKind) :
    inv a m = .error kind ↔ kind = .notInvertible ∧ Nat.gcd (modulo a m) m ≠ 1 := by
  unfold inv
  split <;> simp_all [eq_comm]

/-- An inverse exists whenever the gcd is 1. -/
theorem exists_inv_eq_ok (a : Int) (m : Nat) (h : Nat.gcd (modulo a m) m = 1) : ∃ x, inv a m = .ok x := by
  simp [inv, h]

end Sys2Proof.Machine
end

