-- ==== Sys2Proof/Laws/Operands.lean ====
section
/-! SUPPORT. The words and bytes of a register (spec/20_memory.md R38, spec/41_point_codec.md R76). -/

namespace Sys2Proof.Machine

/-! ### Words -/

theorem getLsbD_regWord (v : Reg) (j i : Nat) :
    (regWord v j).getLsbD i = (decide (i < 32) && v.getLsbD (224 - 32 * j + i)) := by
  simp [regWord, BitVec.getLsbD_extractLsb']

theorem getLsbD_setRegWord (v : Reg) (j : Nat) (w : Word) (i : Nat) (hi : i < 256) :
    (setRegWord v j w).getLsbD i =
      if 224 - 32 * j ≤ i ∧ i < 224 - 32 * j + 32 then w.getLsbD (i - (224 - 32 * j)) else v.getLsbD i := by
  have hones : ∀ n, (0xFFFFFFFF#32).getLsbD n = decide (n < 32) := fun n => by
    rw [show (0xFFFFFFFF#32) = BitVec.allOnes 32 by decide, BitVec.getLsbD_allOnes]
  simp only [setRegWord, BitVec.getLsbD_or, BitVec.getLsbD_and, BitVec.getLsbD_not, BitVec.getLsbD_shiftLeft,
    BitVec.getLsbD_setWidth, hones, hi, decide_true, Bool.true_and]
  by_cases h1 : i < 224 - 32 * j
  · simp [h1, show ¬ 224 - 32 * j ≤ i by omega]
  · by_cases h2 : i < 224 - 32 * j + 32
    · simp [show 224 - 32 * j ≤ i by omega, h2, h1, show i - (224 - 32 * j) < 32 by omega,
        show i - (224 - 32 * j) < 256 by omega]
    · simp [h2, h1, show ¬ i - (224 - 32 * j) < 32 by omega, show i - (224 - 32 * j) < 256 by omega,
        BitVec.getLsbD_of_ge w _ (show 32 ≤ i - (224 - 32 * j) by omega)]

/-- A word write replaces that word and no other. -/
theorem regWord_setRegWord (v : Reg) (w : Word) {j j' : Nat} (hj : j < 8) (hj' : j' < 8) :
    regWord (setRegWord v j w) j' = if j' = j then w else regWord v j' := by
  ext i hi
  simp only [← BitVec.getLsbD_eq_getElem]
  rw [getLsbD_regWord, getLsbD_setRegWord _ _ _ _ (by omega)]
  by_cases h : j' = j
  · subst h; simp [hi]
  · rw [if_neg h, if_neg (by omega), getLsbD_regWord]

/-- A register is its eight words. -/
theorem eq_of_regWord_eq {v v' : Reg} (h : ∀ j, j < 8 → regWord v j = regWord v' j) : v = v' := by
  ext i hi
  simp only [← BitVec.getLsbD_eq_getElem]
  have := congrArg (fun w : Word => w.getLsbD (i % 32)) (h (7 - i / 32) (by omega))
  simp only [getLsbD_regWord, Nat.mod_lt i (show 0 < 32 by decide), decide_true, Bool.true_and] at this
  rwa [show 224 - 32 * (7 - i / 32) + i % 32 = i by omega] at this

/-! ### Bytes -/

@[simp] theorem length_be32 (v : Reg) : (be32 v).length = 32 := by simp [be32]

theorem getD_be32 (v : Reg) {i : Nat} (hi : i < 32) : (be32 v).getD i 0 = v.extractLsb' (248 - 8 * i) 8 := by
  simp [be32, List.getD_eq_getElem?_getD, hi]

theorem fromBe_append_singleton (bs : List Byte) (b : Byte) : fromBe (bs ++ [b]) = fromBe bs * 256 + b.toNat := by
  simp [fromBe]

theorem fromBe_lt (bs : List Byte) : fromBe bs < 256 ^ bs.length := by
  induction bs using List.reverseRecOn with
  | nil => simp [fromBe]
  | append_singleton bs b ih =>
    rw [fromBe_append_singleton, List.length_append, List.length_singleton, pow_succ]
    have := b.isLt
    omega

/-- `from_be` inverts `be32` (R76). -/
theorem fromBe_be32 (v : Reg) : fromBe (be32 v) = v.toNat := by
  have key : ∀ n, n ≤ 32 →
      fromBe ((List.range n).map fun i => v.extractLsb' (248 - 8 * i) 8) = v.toNat / 2 ^ (256 - 8 * n) := by
    intro n
    induction n with
    | zero =>
      intro _
      simp only [List.range_zero, List.map_nil]
      rw [Nat.div_eq_of_lt v.isLt]; rfl
    | succ n ih =>
      intro hn
      rw [List.range_succ, List.map_append, List.map_singleton, fromBe_append_singleton, ih (by omega),
        BitVec.extractLsb'_toNat, Nat.shiftRight_eq_div_pow, show 256 - 8 * n = (248 - 8 * n) + 8 by omega,
        show 256 - 8 * (n + 1) = 248 - 8 * n by omega, pow_add, ← Nat.div_div_eq_div_mul]
      omega
  simpa [be32] using key 32 le_rfl

/-- `be32` inverts `from_be` on 32 bytes (R76). -/
theorem be32_fromBe {bs : List Byte} (h : bs.length = 32) : be32 (BitVec.ofNat 256 (fromBe bs)) = bs := by
  have key : ∀ (cs : List Byte) (i : Nat), i < cs.length →
      cs.getD i 0 = BitVec.ofNat 8 (fromBe cs / 2 ^ (8 * (cs.length - 1 - i))) := by
    intro cs
    induction cs using List.reverseRecOn with
    | nil => simp
    | append_singleton cs b ih =>
      intro i hi
      simp only [List.length_append, List.length_singleton] at hi ⊢
      rw [fromBe_append_singleton]
      rcases Nat.lt_succ_iff_lt_or_eq.1 hi with hlt | rfl
      · rw [List.getD_append _ _ _ _ hlt, ih i hlt,
          show cs.length + 1 - 1 - i = (cs.length - 1 - i) + 1 by omega, Nat.mul_add, Nat.mul_one, Nat.add_comm _ 8,
          pow_add, ← Nat.div_div_eq_div_mul]
        congr 2
        have := b.isLt
        omega
      · apply BitVec.eq_of_toNat_eq
        simp [List.getD_eq_getElem?_getD, Nat.mod_eq_of_lt b.isLt]
  refine List.ext_getElem (by simp [h]) fun i hi hi' => ?_
  have h1 := getD_be32 (BitVec.ofNat 256 (fromBe bs)) (i := i) (by simpa using hi)
  have h2 := key bs i hi'
  rw [List.getD_eq_getElem _ _ hi] at h1
  rw [List.getD_eq_getElem _ _ hi'] at h2
  rw [h1, h2, h]
  apply BitVec.eq_of_toNat_eq
  have hlt : fromBe bs < 2 ^ 256 := by
    have := fromBe_lt bs
    rw [h] at this
    calc fromBe bs < 256 ^ 32 := this
      _ = 2 ^ 256 := by norm_num
  simp only [BitVec.extractLsb'_toNat, BitVec.toNat_ofNat, Nat.shiftRight_eq_div_pow, Nat.mod_eq_of_lt hlt]
  have : i < 32 := by simpa using hi
  rw [show 8 * (32 - 1 - i) = 248 - 8 * i by omega]

end Sys2Proof.Machine
end

