-- ==== Sys2Proof/Laws/State.lean ====
section
/-! SUPPORT. What each shared update of the state leaves in each field, so that no proof unfolds a record update. -/

namespace Sys2Proof.Machine

/-! ### `beginStep` -/

@[simp] theorem beginStep_a (rest : List StepLabel) (s : State) : (beginStep rest s).a = s.a := rfl
@[simp] theorem beginStep_e (rest : List StepLabel) (s : State) : (beginStep rest s).e = s.e := rfl
@[simp] theorem beginStep_px (rest : List StepLabel) (s : State) : (beginStep rest s).px = s.px := rfl
@[simp] theorem beginStep_py (rest : List StepLabel) (s : State) : (beginStep rest s).py = s.py := rfl
@[simp] theorem beginStep_qx (rest : List StepLabel) (s : State) : (beginStep rest s).qx = s.qx := rfl
@[simp] theorem beginStep_qy (rest : List StepLabel) (s : State) : (beginStep rest s).qy = s.qy := rfl
@[simp] theorem beginStep_k (rest : List StepLabel) (s : State) : (beginStep rest s).k = s.k := rfl
@[simp] theorem beginStep_d (rest : List StepLabel) (s : State) : (beginStep rest s).d = s.d := rfl
@[simp] theorem beginStep_z (rest : List StepLabel) (s : State) : (beginStep rest s).z = s.z := rfl
@[simp] theorem beginStep_sr (rest : List StepLabel) (s : State) : (beginStep rest s).sr = s.sr := rfl
@[simp] theorem beginStep_ss (rest : List StepLabel) (s : State) : (beginStep rest s).ss = s.ss := rfl
@[simp] theorem beginStep_rx (rest : List StepLabel) (s : State) : (beginStep rest s).rx = s.rx := rfl
@[simp] theorem beginStep_ry (rest : List StepLabel) (s : State) : (beginStep rest s).ry = s.ry := rfl
@[simp] theorem beginStep_pbuf (rest : List StepLabel) (s : State) : (beginStep rest s).pbuf = s.pbuf := rfl
@[simp] theorem beginStep_plen (rest : List StepLabel) (s : State) : (beginStep rest s).plen = s.plen := rfl
@[simp] theorem beginStep_cmd (rest : List StepLabel) (s : State) : (beginStep rest s).cmd = s.cmd := rfl
@[simp] theorem beginStep_busy (rest : List StepLabel) (s : State) : (beginStep rest s).busy = s.busy := rfl
@[simp] theorem beginStep_done (rest : List StepLabel) (s : State) : (beginStep rest s).done = s.done := rfl
@[simp] theorem beginStep_err (rest : List StepLabel) (s : State) : (beginStep rest s).err = s.err := rfl
@[simp] theorem beginStep_ie (rest : List StepLabel) (s : State) : (beginStep rest s).ie = s.ie := rfl
@[simp] theorem beginStep_agenda (rest : List StepLabel) (s : State) : (beginStep rest s).agenda = rest := rfl
@[simp] theorem beginStep_resp (rest : List StepLabel) (s : State) : (beginStep rest s).resp = none := rfl

/-! ### `endCommand` -/

@[simp] theorem endCommand_a (code : BitVec 4) (s : State) : (endCommand code s).a = s.a := rfl
@[simp] theorem endCommand_e (code : BitVec 4) (s : State) : (endCommand code s).e = s.e := rfl
@[simp] theorem endCommand_px (code : BitVec 4) (s : State) : (endCommand code s).px = s.px := rfl
@[simp] theorem endCommand_py (code : BitVec 4) (s : State) : (endCommand code s).py = s.py := rfl
@[simp] theorem endCommand_qx (code : BitVec 4) (s : State) : (endCommand code s).qx = s.qx := rfl
@[simp] theorem endCommand_qy (code : BitVec 4) (s : State) : (endCommand code s).qy = s.qy := rfl
@[simp] theorem endCommand_k (code : BitVec 4) (s : State) : (endCommand code s).k = s.k := rfl
@[simp] theorem endCommand_d (code : BitVec 4) (s : State) : (endCommand code s).d = s.d := rfl
@[simp] theorem endCommand_z (code : BitVec 4) (s : State) : (endCommand code s).z = s.z := rfl
@[simp] theorem endCommand_sr (code : BitVec 4) (s : State) : (endCommand code s).sr = s.sr := rfl
@[simp] theorem endCommand_ss (code : BitVec 4) (s : State) : (endCommand code s).ss = s.ss := rfl
@[simp] theorem endCommand_rx (code : BitVec 4) (s : State) : (endCommand code s).rx = s.rx := rfl
@[simp] theorem endCommand_ry (code : BitVec 4) (s : State) : (endCommand code s).ry = s.ry := rfl
@[simp] theorem endCommand_pbuf (code : BitVec 4) (s : State) : (endCommand code s).pbuf = s.pbuf := rfl
@[simp] theorem endCommand_plen (code : BitVec 4) (s : State) : (endCommand code s).plen = s.plen := rfl
@[simp] theorem endCommand_cmd (code : BitVec 4) (s : State) : (endCommand code s).cmd = s.cmd := rfl
@[simp] theorem endCommand_busy (code : BitVec 4) (s : State) : (endCommand code s).busy = false := rfl
@[simp] theorem endCommand_done (code : BitVec 4) (s : State) : (endCommand code s).done = true := rfl
@[simp] theorem endCommand_err (code : BitVec 4) (s : State) : (endCommand code s).err = code := rfl
@[simp] theorem endCommand_ie (code : BitVec 4) (s : State) : (endCommand code s).ie = s.ie := rfl
@[simp] theorem endCommand_agenda (code : BitVec 4) (s : State) : (endCommand code s).agenda = s.agenda := rfl
@[simp] theorem endCommand_resp (code : BitVec 4) (s : State) : (endCommand code s).resp = s.resp := rfl

/-! ### `takeFailure` -/

@[simp] theorem takeFailure_a (kind : FailKind) (s : State) : (takeFailure kind s).a = s.a := rfl
@[simp] theorem takeFailure_e (kind : FailKind) (s : State) : (takeFailure kind s).e = s.e := rfl
@[simp] theorem takeFailure_px (kind : FailKind) (s : State) : (takeFailure kind s).px = s.px := rfl
@[simp] theorem takeFailure_py (kind : FailKind) (s : State) : (takeFailure kind s).py = s.py := rfl
@[simp] theorem takeFailure_qx (kind : FailKind) (s : State) : (takeFailure kind s).qx = s.qx := rfl
@[simp] theorem takeFailure_qy (kind : FailKind) (s : State) : (takeFailure kind s).qy = s.qy := rfl
@[simp] theorem takeFailure_k (kind : FailKind) (s : State) : (takeFailure kind s).k = s.k := rfl
@[simp] theorem takeFailure_d (kind : FailKind) (s : State) : (takeFailure kind s).d = s.d := rfl
@[simp] theorem takeFailure_z (kind : FailKind) (s : State) : (takeFailure kind s).z = s.z := rfl
@[simp] theorem takeFailure_sr (kind : FailKind) (s : State) : (takeFailure kind s).sr = s.sr := rfl
@[simp] theorem takeFailure_ss (kind : FailKind) (s : State) : (takeFailure kind s).ss = s.ss := rfl
@[simp] theorem takeFailure_rx (kind : FailKind) (s : State) : (takeFailure kind s).rx = 0 := rfl
@[simp] theorem takeFailure_ry (kind : FailKind) (s : State) : (takeFailure kind s).ry = 0 := rfl
@[simp] theorem takeFailure_pbuf (kind : FailKind) (s : State) : (takeFailure kind s).pbuf = s.pbuf := rfl
@[simp] theorem takeFailure_plen (kind : FailKind) (s : State) : (takeFailure kind s).plen = s.plen := rfl
@[simp] theorem takeFailure_cmd (kind : FailKind) (s : State) : (takeFailure kind s).cmd = s.cmd := rfl
@[simp] theorem takeFailure_busy (kind : FailKind) (s : State) : (takeFailure kind s).busy = false := rfl
@[simp] theorem takeFailure_done (kind : FailKind) (s : State) : (takeFailure kind s).done = true := rfl
@[simp] theorem takeFailure_err (kind : FailKind) (s : State) : (takeFailure kind s).err = kind.code := rfl
@[simp] theorem takeFailure_ie (kind : FailKind) (s : State) : (takeFailure kind s).ie = s.ie := rfl
@[simp] theorem takeFailure_agenda (kind : FailKind) (s : State) : (takeFailure kind s).agenda = s.agenda := rfl
@[simp] theorem takeFailure_resp (kind : FailKind) (s : State) : (takeFailure kind s).resp = s.resp := rfl

/-! ### `deliverValue` -/

@[simp] theorem deliverValue_a (x y : Nat) (s : State) : (deliverValue x y s).a = s.a := rfl
@[simp] theorem deliverValue_e (x y : Nat) (s : State) : (deliverValue x y s).e = s.e := rfl
@[simp] theorem deliverValue_px (x y : Nat) (s : State) : (deliverValue x y s).px = s.px := rfl
@[simp] theorem deliverValue_py (x y : Nat) (s : State) : (deliverValue x y s).py = s.py := rfl
@[simp] theorem deliverValue_qx (x y : Nat) (s : State) : (deliverValue x y s).qx = s.qx := rfl
@[simp] theorem deliverValue_qy (x y : Nat) (s : State) : (deliverValue x y s).qy = s.qy := rfl
@[simp] theorem deliverValue_k (x y : Nat) (s : State) : (deliverValue x y s).k = s.k := rfl
@[simp] theorem deliverValue_d (x y : Nat) (s : State) : (deliverValue x y s).d = s.d := rfl
@[simp] theorem deliverValue_z (x y : Nat) (s : State) : (deliverValue x y s).z = s.z := rfl
@[simp] theorem deliverValue_sr (x y : Nat) (s : State) : (deliverValue x y s).sr = s.sr := rfl
@[simp] theorem deliverValue_ss (x y : Nat) (s : State) : (deliverValue x y s).ss = s.ss := rfl
@[simp] theorem deliverValue_rx (x y : Nat) (s : State) : (deliverValue x y s).rx = BitVec.ofNat 256 x := rfl
@[simp] theorem deliverValue_ry (x y : Nat) (s : State) : (deliverValue x y s).ry = BitVec.ofNat 256 y := rfl
@[simp] theorem deliverValue_pbuf (x y : Nat) (s : State) : (deliverValue x y s).pbuf = s.pbuf := rfl
@[simp] theorem deliverValue_plen (x y : Nat) (s : State) : (deliverValue x y s).plen = s.plen := rfl
@[simp] theorem deliverValue_cmd (x y : Nat) (s : State) : (deliverValue x y s).cmd = s.cmd := rfl
@[simp] theorem deliverValue_busy (x y : Nat) (s : State) : (deliverValue x y s).busy = false := rfl
@[simp] theorem deliverValue_done (x y : Nat) (s : State) : (deliverValue x y s).done = true := rfl
@[simp] theorem deliverValue_err (x y : Nat) (s : State) : (deliverValue x y s).err = okCode := rfl
@[simp] theorem deliverValue_ie (x y : Nat) (s : State) : (deliverValue x y s).ie = s.ie := rfl
@[simp] theorem deliverValue_agenda (x y : Nat) (s : State) : (deliverValue x y s).agenda = s.agenda := rfl
@[simp] theorem deliverValue_resp (x y : Nat) (s : State) : (deliverValue x y s).resp = s.resp := rfl

/-! ### `deliverBuffer` -/

@[simp] theorem deliverBuffer_a (len : Nat) (bytes : List Byte) (s : State) : (deliverBuffer len bytes s).a = s.a := rfl
@[simp] theorem deliverBuffer_e (len : Nat) (bytes : List Byte) (s : State) : (deliverBuffer len bytes s).e = s.e := rfl
@[simp] theorem deliverBuffer_px (len : Nat) (bytes : List Byte) (s : State) : (deliverBuffer len bytes s).px = s.px := rfl
@[simp] theorem deliverBuffer_py (len : Nat) (bytes : List Byte) (s : State) : (deliverBuffer len bytes s).py = s.py := rfl
@[simp] theorem deliverBuffer_qx (len : Nat) (bytes : List Byte) (s : State) : (deliverBuffer len bytes s).qx = s.qx := rfl
@[simp] theorem deliverBuffer_qy (len : Nat) (bytes : List Byte) (s : State) : (deliverBuffer len bytes s).qy = s.qy := rfl
@[simp] theorem deliverBuffer_k (len : Nat) (bytes : List Byte) (s : State) : (deliverBuffer len bytes s).k = s.k := rfl
@[simp] theorem deliverBuffer_d (len : Nat) (bytes : List Byte) (s : State) : (deliverBuffer len bytes s).d = s.d := rfl
@[simp] theorem deliverBuffer_z (len : Nat) (bytes : List Byte) (s : State) : (deliverBuffer len bytes s).z = s.z := rfl
@[simp] theorem deliverBuffer_sr (len : Nat) (bytes : List Byte) (s : State) : (deliverBuffer len bytes s).sr = s.sr := rfl
@[simp] theorem deliverBuffer_ss (len : Nat) (bytes : List Byte) (s : State) : (deliverBuffer len bytes s).ss = s.ss := rfl
@[simp] theorem deliverBuffer_rx (len : Nat) (bytes : List Byte) (s : State) : (deliverBuffer len bytes s).rx = s.rx := rfl
@[simp] theorem deliverBuffer_ry (len : Nat) (bytes : List Byte) (s : State) : (deliverBuffer len bytes s).ry = s.ry := rfl
@[simp] theorem deliverBuffer_pbuf (len : Nat) (bytes : List Byte) (s : State) : (deliverBuffer len bytes s).pbuf = 
    s.pbuf.writeBytes (pbufAddr 0) (bytes ++ List.replicate (pbufSize - bytes.length) 0x00) := rfl
@[simp] theorem deliverBuffer_plen (len : Nat) (bytes : List Byte) (s : State) : (deliverBuffer len bytes s).plen = BitVec.ofNat 7 len := rfl
@[simp] theorem deliverBuffer_cmd (len : Nat) (bytes : List Byte) (s : State) : (deliverBuffer len bytes s).cmd = s.cmd := rfl
@[simp] theorem deliverBuffer_busy (len : Nat) (bytes : List Byte) (s : State) : (deliverBuffer len bytes s).busy = false := rfl
@[simp] theorem deliverBuffer_done (len : Nat) (bytes : List Byte) (s : State) : (deliverBuffer len bytes s).done = true := rfl
@[simp] theorem deliverBuffer_err (len : Nat) (bytes : List Byte) (s : State) : (deliverBuffer len bytes s).err = okCode := rfl
@[simp] theorem deliverBuffer_ie (len : Nat) (bytes : List Byte) (s : State) : (deliverBuffer len bytes s).ie = s.ie := rfl
@[simp] theorem deliverBuffer_agenda (len : Nat) (bytes : List Byte) (s : State) : (deliverBuffer len bytes s).agenda = s.agenda := rfl
@[simp] theorem deliverBuffer_resp (len : Nat) (bytes : List Byte) (s : State) : (deliverBuffer len bytes s).resp = s.resp := rfl

/-! ### `acknowledge` -/

@[simp] theorem acknowledge_a (s : State) : (acknowledge s).a = s.a := rfl
@[simp] theorem acknowledge_e (s : State) : (acknowledge s).e = s.e := rfl
@[simp] theorem acknowledge_px (s : State) : (acknowledge s).px = s.px := rfl
@[simp] theorem acknowledge_py (s : State) : (acknowledge s).py = s.py := rfl
@[simp] theorem acknowledge_qx (s : State) : (acknowledge s).qx = s.qx := rfl
@[simp] theorem acknowledge_qy (s : State) : (acknowledge s).qy = s.qy := rfl
@[simp] theorem acknowledge_k (s : State) : (acknowledge s).k = s.k := rfl
@[simp] theorem acknowledge_d (s : State) : (acknowledge s).d = s.d := rfl
@[simp] theorem acknowledge_z (s : State) : (acknowledge s).z = s.z := rfl
@[simp] theorem acknowledge_sr (s : State) : (acknowledge s).sr = s.sr := rfl
@[simp] theorem acknowledge_ss (s : State) : (acknowledge s).ss = s.ss := rfl
@[simp] theorem acknowledge_rx (s : State) : (acknowledge s).rx = s.rx := rfl
@[simp] theorem acknowledge_ry (s : State) : (acknowledge s).ry = s.ry := rfl
@[simp] theorem acknowledge_pbuf (s : State) : (acknowledge s).pbuf = s.pbuf := rfl
@[simp] theorem acknowledge_plen (s : State) : (acknowledge s).plen = s.plen := rfl
@[simp] theorem acknowledge_cmd (s : State) : (acknowledge s).cmd = s.cmd := rfl
@[simp] theorem acknowledge_busy (s : State) : (acknowledge s).busy = s.busy := rfl
@[simp] theorem acknowledge_done (s : State) : (acknowledge s).done = false := rfl
@[simp] theorem acknowledge_err (s : State) : (acknowledge s).err = s.err := rfl
@[simp] theorem acknowledge_ie (s : State) : (acknowledge s).ie = s.ie := rfl
@[simp] theorem acknowledge_agenda (s : State) : (acknowledge s).agenda = s.agenda := rfl
@[simp] theorem acknowledge_resp (s : State) : (acknowledge s).resp = s.resp := rfl

/-! ### `resetStep` -/

@[simp] theorem resetStep_a (s : State) : (resetStep s).a = 0 := rfl
@[simp] theorem resetStep_e (s : State) : (resetStep s).e = 0 := rfl
@[simp] theorem resetStep_px (s : State) : (resetStep s).px = 0 := rfl
@[simp] theorem resetStep_py (s : State) : (resetStep s).py = 0 := rfl
@[simp] theorem resetStep_qx (s : State) : (resetStep s).qx = 0 := rfl
@[simp] theorem resetStep_qy (s : State) : (resetStep s).qy = 0 := rfl
@[simp] theorem resetStep_k (s : State) : (resetStep s).k = 0 := rfl
@[simp] theorem resetStep_d (s : State) : (resetStep s).d = 0 := rfl
@[simp] theorem resetStep_z (s : State) : (resetStep s).z = 0 := rfl
@[simp] theorem resetStep_sr (s : State) : (resetStep s).sr = 0 := rfl
@[simp] theorem resetStep_ss (s : State) : (resetStep s).ss = 0 := rfl
@[simp] theorem resetStep_rx (s : State) : (resetStep s).rx = 0 := rfl
@[simp] theorem resetStep_ry (s : State) : (resetStep s).ry = 0 := rfl
@[simp] theorem resetStep_pbuf (s : State) : (resetStep s).pbuf = [] := rfl
@[simp] theorem resetStep_plen (s : State) : (resetStep s).plen = 0 := rfl
@[simp] theorem resetStep_cmd (s : State) : (resetStep s).cmd = 0 := rfl
@[simp] theorem resetStep_busy (s : State) : (resetStep s).busy = false := rfl
@[simp] theorem resetStep_done (s : State) : (resetStep s).done = false := rfl
@[simp] theorem resetStep_err (s : State) : (resetStep s).err = 0 := rfl
@[simp] theorem resetStep_ie (s : State) : (resetStep s).ie = false := rfl
@[simp] theorem resetStep_agenda (s : State) : (resetStep s).agenda = s.agenda := rfl
@[simp] theorem resetStep_resp (s : State) : (resetStep s).resp = none := rfl

/-! ### `setOperand` -/

theorem operand_setOperand (s : State) (r r' : OperandReg) (v : Reg) :
    (s.setOperand r v).operand r' = if r' = r then v else s.operand r' := by
  cases r <;> cases r' <;> rfl

@[simp] theorem setOperand_rx (s : State) (r : OperandReg) (v : Reg) : (s.setOperand r v).rx = s.rx := by cases r <;> rfl
@[simp] theorem setOperand_ry (s : State) (r : OperandReg) (v : Reg) : (s.setOperand r v).ry = s.ry := by cases r <;> rfl
@[simp] theorem setOperand_pbuf (s : State) (r : OperandReg) (v : Reg) : (s.setOperand r v).pbuf = s.pbuf := by cases r <;> rfl
@[simp] theorem setOperand_plen (s : State) (r : OperandReg) (v : Reg) : (s.setOperand r v).plen = s.plen := by cases r <;> rfl
@[simp] theorem setOperand_cmd (s : State) (r : OperandReg) (v : Reg) : (s.setOperand r v).cmd = s.cmd := by cases r <;> rfl
@[simp] theorem setOperand_busy (s : State) (r : OperandReg) (v : Reg) : (s.setOperand r v).busy = s.busy := by cases r <;> rfl
@[simp] theorem setOperand_done (s : State) (r : OperandReg) (v : Reg) : (s.setOperand r v).done = s.done := by cases r <;> rfl
@[simp] theorem setOperand_err (s : State) (r : OperandReg) (v : Reg) : (s.setOperand r v).err = s.err := by cases r <;> rfl
@[simp] theorem setOperand_ie (s : State) (r : OperandReg) (v : Reg) : (s.setOperand r v).ie = s.ie := by cases r <;> rfl
@[simp] theorem setOperand_agenda (s : State) (r : OperandReg) (v : Reg) : (s.setOperand r v).agenda = s.agenda := by cases r <;> rfl
@[simp] theorem setOperand_resp (s : State) (r : OperandReg) (v : Reg) : (s.setOperand r v).resp = s.resp := by cases r <;> rfl

/-! ### The operand registers as a family -/

@[simp] theorem operand_beginStep (rest : List StepLabel) (s : State) (r : OperandReg) :
    (beginStep rest s).operand r = s.operand r := by cases r <;> rfl
@[simp] theorem operand_takeFailure (kind : FailKind) (s : State) (r : OperandReg) :
    (takeFailure kind s).operand r = s.operand r := by cases r <;> rfl
@[simp] theorem operand_deliverValue (x y : Nat) (s : State) (r : OperandReg) :
    (deliverValue x y s).operand r = s.operand r := by cases r <;> rfl
@[simp] theorem operand_deliverBuffer (len : Nat) (bytes : List Byte) (s : State) (r : OperandReg) :
    (deliverBuffer len bytes s).operand r = s.operand r := by cases r <;> rfl
@[simp] theorem operand_acknowledge (s : State) (r : OperandReg) :
    (acknowledge s).operand r = s.operand r := by cases r <;> rfl

end Sys2Proof.Machine
end

