-- ==== Sys2Proof/Laws/Ops.lean ====
section
/-! SUPPORT. Everything the completion step can do, said once: what a command evaluates to, and what delivering that
writes. -/

namespace Sys2Proof.Machine

/-- What the command evaluates to: `exec(c)` of spec/60_exceptions.md R117, before its writes. -/
def commandResult (s : State) : Instr → CmdResult
  | .modinv m => .ofNumber (inv s.a.toNat (mselMod m))
  | .modexp m => .value (powmod s.a.toNat s.e.toNat (mselMod m)) 0
  | .pdec => .ofPoint (decodePoint (s.pbufBytes 0 65) s.plen.toNat)
  | .penc f => .buffer (encodePoint s.px s.py f).length (encodePoint s.px s.py f)
  | .pdbl => .ofPoint (pointDouble s.pointP)
  | .padd => .ofPoint (pointAdd s.pointP s.pointQ)
  | .pmul => .ofPoint (pointMul s.pointP s.k.toNat)
  | .sign => .ofSignature (signCore s.d.toNat s.z.toNat s.k.toNat)
  | .verify => .ofVerdict (verifyCore s.pointQ s.z.toNat s.sr.toNat s.ss.toNat)

/-- Every command completes, with the writes of its result. -/
theorem exec_eq (i : Instr) (s : State) : exec i s = .next (complete (commandResult s i) s) := by
  cases i <;> rfl

theorem exec_next {i : Instr} {s t : State} (h : exec i s = .next t) : t = complete (commandResult s i) s := by
  rw [exec_eq] at h; cases h; rfl

/-- Only `PENC` delivers an encoded point. -/
theorem commandResult_ne_buffer {s : State} {i : Instr} (h : ∀ f, i ≠ .penc f) (len : Nat) (bytes : List Byte) :
    commandResult s i ≠ .buffer len bytes := by
  have num : ∀ r, CmdResult.ofNumber r ≠ .buffer len bytes := fun r => by cases r <;> simp [CmdResult.ofNumber]
  have pt : ∀ r, CmdResult.ofPoint r ≠ .buffer len bytes := fun r => by cases r <;> simp [CmdResult.ofPoint]
  have sig : ∀ r, CmdResult.ofSignature r ≠ .buffer len bytes := fun r => by
    cases r <;> simp [CmdResult.ofSignature]
  cases i with
  | penc f => exact absurd rfl (h f)
  | modexp m => simp [commandResult]
  | verify => simp only [commandResult, CmdResult.ofVerdict]; split <;> simp
  | modinv m => exact num _
  | sign => exact sig _
  | _ => exact pt _

/-- No completion writes an operand register, `CMD` or `CTRL`, and every one ends the command. -/
theorem complete_frame (r : CmdResult) (s : State) :
    (∀ o, (complete r s).operand o = s.operand o) ∧ (complete r s).cmd = s.cmd ∧ (complete r s).ie = s.ie ∧
    (complete r s).agenda = s.agenda ∧ (complete r s).resp = s.resp ∧
    (complete r s).busy = false ∧ (complete r s).done = true := by
  cases r <;> simp [complete]

/-- A completion that is no encoded point leaves `PBUF` and `PLEN`. -/
theorem complete_pbuf {r : CmdResult} (h : ∀ len bytes, r ≠ .buffer len bytes) (s : State) :
    (complete r s).pbuf = s.pbuf ∧ (complete r s).plen = s.plen := by
  cases r with
  | buffer len bytes => exact absurd rfl (h len bytes)
  | value x y => simp [complete]
  | fail kind => simp [complete]

theorem code_ne_zero (kind : FailKind) : kind.code ≠ 0 := by cases kind <;> decide

theorem code_le (kind : FailKind) : kind.code.toNat ≤ 7 := by cases kind <;> decide

theorem code_injective {k k' : FailKind} (h : k.code = k'.code) : k = k' := by
  cases k <;> cases k' <;> first | rfl | exact absurd h (by decide)

/-- A completion reports a non-zero code exactly when the command failed, and then the results are 0. -/
theorem complete_err (r : CmdResult) (s : State) :
    ((complete r s).err = 0 ∧ ∀ kind, r ≠ .fail kind) ∨
    ∃ kind, r = .fail kind ∧ (complete r s).err = kind.code ∧ (complete r s).rx = 0 ∧ (complete r s).ry = 0 := by
  cases r with
  | value x y => exact .inl ⟨rfl, by simp⟩
  | buffer len bytes => exact .inl ⟨rfl, by simp⟩
  | fail kind => exact .inr ⟨kind, rfl, rfl, rfl, rfl⟩

/-! ### The outcomes as results -/

@[simp] theorem ofNumber_ok (x : Nat) : CmdResult.ofNumber (.ok x) = .value x 0 := rfl
@[simp] theorem ofNumber_error (k : FailKind) : CmdResult.ofNumber (.error k) = .fail k := rfl
@[simp] theorem ofPoint_ok (p : Point) : CmdResult.ofPoint (.ok p) = .value p.x p.y := rfl
@[simp] theorem ofPoint_error (k : FailKind) : CmdResult.ofPoint (.error k) = .fail k := rfl
@[simp] theorem ofSignature_ok (g : Signature) : CmdResult.ofSignature (.ok g) = .value g.r g.s := rfl
@[simp] theorem ofSignature_error (k : FailKind) : CmdResult.ofSignature (.error k) = .fail k := rfl
@[simp] theorem ofVerdict_true : CmdResult.ofVerdict true = .value 1 0 := rfl
@[simp] theorem ofVerdict_false : CmdResult.ofVerdict false = .fail .invalidSignature := rfl

end Sys2Proof.Machine
end

