-- ==== Sys2Proof/Laws/Pbuf.lean ====
section
/-! SUPPORT. The two operations that write the point buffer: what each byte holds after them, and that they keep the
storage canonical with the padding bytes 0 (spec/10_state.md R18). -/

namespace Sys2Proof.Machine

theorem pbufOk_reset : pbufOk State.reset.pbuf := by decide

/-- A port write keeps the storage in form: word 16 writes byte 64 only (R39). -/
theorem pbufOk_setPbufWord {s : State} (h : pbufOk s.pbuf) {j : Nat} (hj : j < 17) (data : Word) :
    pbufOk (s.setPbufWord j data).pbuf := by
  refine ⟨Memory.wf_writeBytes h.1 _ _, fun c hc => ?_⟩
  rcases Memory.mem_writeBytes hc with hc | ⟨i, hi, rfl, -⟩
  · exact h.2 c hc
  · simp only [pbufAddr]
    split at hi
    · simp at hi; omega
    · simp [wordBytes] at hi; omega

/-- Delivering an encoded point of at most 65 bytes keeps the storage in form. -/
theorem pbufOk_deliverBuffer {s : State} (h : pbufOk s.pbuf) (len : Nat) {bytes : List Byte}
    (hb : bytes.length ≤ 65) : pbufOk (deliverBuffer len bytes s).pbuf := by
  refine ⟨Memory.wf_writeBytes h.1 _ _, fun c hc => ?_⟩
  rcases Memory.mem_writeBytes hc with hc | ⟨i, hi, rfl, hne⟩
  · exact h.2 c hc
  · have : i < bytes.length := by
      by_contra hge
      rw [not_lt] at hge
      have hi' : i - bytes.length < pbufSize - bytes.length := by
        simp at hi; omega
      exact hne (by
        show (bytes ++ List.replicate (pbufSize - bytes.length) (0x00 : Byte)).getD i 0 = 0
        rw [List.getD_append_right _ _ _ _ hge, List.getD_eq_getElem _ _ (by simpa using hi')]
        simp)
    simp only [pbufAddr]; omega

/-- After an encoded point is delivered, each of the 68 bytes is that of the padded point (R81). -/
theorem pbufByte_deliverBuffer {s : State} (h : s.pbuf.wf) (len : Nat) (bytes : List Byte) {i : Nat} (hi : i < 68)
    (hb : bytes.length ≤ 68) : (deliverBuffer len bytes s).pbufByte i = bytes.getD i 0 := by
  have hlen : (bytes ++ List.replicate (pbufSize - bytes.length) (0x00 : Byte)).length = 68 := by
    simp [pbufSize]; omega
  simp only [State.pbufByte, deliverBuffer_pbuf, Memory.read_writeBytes h, hlen]
  rw [if_pos (by simp only [pbufAddr]; omega), show pbufAddr i - pbufAddr 0 = i by simp only [pbufAddr]; omega]
  by_cases hlt : i < bytes.length
  · rw [List.getD_append _ _ _ _ hlt]
  · rw [List.getD_append_right _ _ _ _ (by omega), List.getD_eq_default bytes _ (by omega),
      List.getD_eq_getElem _ _ (by simp [pbufSize]; omega)]
    simp

/-- Outside the buffer nothing changes. -/
theorem read_deliverBuffer {s : State} (h : s.pbuf.wf) (len : Nat) {bytes : List Byte} (hb : bytes.length ≤ 68)
    {n : Nat} (hn : n < pbufAddr 0 ∨ pbufAddr 67 < n) : (deliverBuffer len bytes s).pbuf.read n = s.pbuf.read n := by
  have hlen : (bytes ++ List.replicate (pbufSize - bytes.length) (0x00 : Byte)).length = 68 := by
    simp [pbufSize]; omega
  rw [deliverBuffer_pbuf, Memory.read_writeBytes h, hlen, if_neg]
  simp only [pbufAddr] at hn ⊢; omega

end Sys2Proof.Machine
end

