-- ==== Sys2Proof/Laws/PerInstr.lean ====
section
/-! SUPPORT. What holds of every command as syntax, one lemma per command. -/

namespace Sys2Proof.Laws.EncodedFields

/-- The opcode of a command (spec/30_encoding.md R55). -/
def opcodeOf : Instr → BitVec 8
  | .modinv _ => 0x01
  | .modexp _ => 0x02
  | .pdec => 0x03
  | .penc _ => 0x04
  | .pdbl => 0x05
  | .padd => 0x06
  | .pmul => 0x07
  | .sign => 0x08
  | .verify => 0x09

/-- The word of a command has well-formed fields (R56, R57) and its opcode is the one of the command's row. -/
def Statement (i : Instr) : Prop := (fieldsOf (encode i)).wf = true ∧ (fieldsOf (encode i)).opcode = opcodeOf i

theorem modinv (m : ModSel) : Statement (.modinv m) := by cases m <;> exact ⟨by decide, by decide⟩
theorem modexp (m : ModSel) : Statement (.modexp m) := by cases m <;> exact ⟨by decide, by decide⟩
theorem pdec : Statement .pdec := ⟨by decide, by decide⟩
theorem penc (f : PointForm) : Statement (.penc f) := by cases f <;> exact ⟨by decide, by decide⟩
theorem pdbl : Statement .pdbl := ⟨by decide, by decide⟩
theorem padd : Statement .padd := ⟨by decide, by decide⟩
theorem pmul : Statement .pmul := ⟨by decide, by decide⟩
theorem sign : Statement .sign := ⟨by decide, by decide⟩
theorem verify : Statement .verify := ⟨by decide, by decide⟩

end Sys2Proof.Laws.EncodedFields
end

