-- ==== Sys2Proof/Laws/Port.lean ====
section
/-! SUPPORT. The address map read both ways, and everything a port write can do. -/

namespace Sys2Proof.Machine

/-! ### The address map (spec/20_memory.md R37) -/

theorem decodeAddr_operand (r : OperandReg) {j : Nat} (hj : j < 8) :
    decodeAddr (BitVec.ofNat 10 (r.base + 4 * j)) = .ok (.operand r j) := by
  cases r <;> (revert j; decide)

theorem decodeAddr_result (r : ResultReg) {j : Nat} (hj : j < 8) :
    decodeAddr (BitVec.ofNat 10 (r.base + 4 * j)) = .ok (.result r j) := by
  cases r <;> (revert j; decide)

theorem decodeAddr_pbuf {j : Nat} (hj : j < 17) : decodeAddr (BitVec.ofNat 10 (0x1C0 + 4 * j)) = .ok (.pbuf j) := by
  revert j; decide

/-- The words of a target that an address can name. -/
def Target.inRange : Target → Bool
  | .operand _ j => j < 8
  | .result _ j => j < 8
  | .pbuf j => j < 17
  | _ => true

theorem inRange_of_decodeAddr {addr : Addr} {t : Target} (h : decodeAddr addr = .ok t) : t.inRange = true := by
  simp only [decodeAddr] at h
  repeat' split at h
  all_goals first
    | (cases h; rfl)
    | (cases h; simp only [Target.inRange, decide_eq_true_eq]; omega)
    | cases h

/-! ### Writes -/

/-- Everything `RegWrite` can do: it is refused and only answers so, or the write of its target is performed. -/
theorem regWrite_cases (addr : Addr) (data : Word) (s : State) :
    regWrite addr data s = { s with resp := some (.write true) } ∨
    ∃ t s', decodeAddr addr = .ok t ∧ writeTarget s data t = .ok s' ∧
      regWrite addr data s = { s' with resp := some (.write false) } := by
  unfold regWrite
  split
  · exact .inl rfl
  · next t ht =>
    split
    · next s' hs' => exact .inr ⟨t, s', ht, hs', rfl⟩
    · exact .inl rfl

/-- `RegRead` changes nothing but its answer. -/
theorem regRead_eq (addr : Addr) (s : State) : ∃ answer, regRead addr s = { s with resp := some answer } := by
  unfold regRead
  split
  · exact ⟨_, rfl⟩
  · exact ⟨_, rfl⟩

theorem whenIdle_eq_ok {s w t : State} : whenIdle s w = .ok t ↔ s.busy = false ∧ w = t := by
  unfold whenIdle
  split <;> simp_all

/-- Everything a performed write can do. -/
theorem writeTarget_cases {s s' : State} {data : Word} {t : Target} (h : writeTarget s data t = .ok s') :
    (t = .cmd ∧ s.busy = false ∧ s' = issue data s) ∨
    (t = .status ∧ s' = if data.getLsbD 1 then acknowledge s else s) ∨
    (t = .ctrl ∧ s' = { s with ie := data.getLsbD 0 }) ∨
    (t = .plen ∧ s.busy = false ∧ s' = { s with plen := data.extractLsb' 0 7 }) ∨
    (∃ r j, t = .operand r j ∧ s.busy = false ∧ s' = s.setOperand r (setRegWord (s.operand r) j data)) ∨
    (∃ j, t = .pbuf j ∧ s.busy = false ∧ s' = s.setPbufWord j data) := by
  cases t with
  | result r j => simp [writeTarget] at h
  | status => cases h; exact .inr (.inl ⟨rfl, rfl⟩)
  | ctrl => cases h; exact .inr (.inr (.inl ⟨rfl, rfl⟩))
  | cmd => obtain ⟨hb, rfl⟩ := whenIdle_eq_ok.1 h; exact .inl ⟨rfl, hb, rfl⟩
  | plen => obtain ⟨hb, rfl⟩ := whenIdle_eq_ok.1 h; exact .inr (.inr (.inr (.inl ⟨rfl, hb, rfl⟩)))
  | operand r j =>
    obtain ⟨hb, rfl⟩ := whenIdle_eq_ok.1 h
    exact .inr (.inr (.inr (.inr (.inl ⟨r, j, rfl, hb, rfl⟩))))
  | pbuf j =>
    obtain ⟨hb, rfl⟩ := whenIdle_eq_ok.1 h
    exact .inr (.inr (.inr (.inr (.inr ⟨j, rfl, hb, rfl⟩))))

/-- Everything issue can do (R44). -/
theorem issue_cases (data : Word) (s : State) :
    (∃ i, decode data = .ok i ∧ issue data s = { s with cmd := data, busy := true, done := false, err := 0 }) ∨
    ((∀ i, decode data ≠ .ok i) ∧ issue data s = takeFailure .illegalCommand { s with cmd := data }) := by
  unfold issue
  split
  · next i hi => exact .inl ⟨i, hi, rfl⟩
  · next e he => exact .inr ⟨by simp [he], rfl⟩

end Sys2Proof.Machine
end

