-- ==== Sys2Proof/Laws/Primes.lean ====
section
/-! SUPPORT. `P_FIELD` and `N_ORDER` are prime (spec/93_implementation_defined.md G2), by Pratt certificates: the prime
factors of `n − 1`, and a number whose powers show it. No definition of the model uses this. -/

namespace Sys2Proof.Machine

open Sys2Proof.Config

/-- Lucas's criterion with the powers computed by the model's own square-and-multiply. -/
theorem prime_of_certificate {n : Nat} (a : Nat) (fs : List Nat) (hprime : ∀ q ∈ fs, Nat.Prime q)
    (hprod : 1 < n ∧ fs.prod = n - 1) (hone : powmodLoop a (n - 1) n (bitlen (n - 1)) (1 % n) = 1)
    (hne : ∀ q ∈ fs, powmodLoop a ((n - 1) / q) n (bitlen ((n - 1) / q)) (1 % n) ≠ 1) : Nat.Prime n := by
  have hmod : 1 % n = 1 := Nat.mod_eq_of_lt hprod.1
  have cast_pow_eq_one : ∀ e, (a : ZMod n) ^ e = 1 ↔ a ^ e % n = 1 := fun e => by
    rw [← Nat.cast_pow, ← Nat.cast_one (R := ZMod n), ZMod.natCast_eq_natCast_iff, Nat.ModEq, hmod]
  refine lucas_primality n a ((cast_pow_eq_one _).2 (by rwa [powmodLoop_bitlen] at hone)) fun q hq hdvd => ?_
  have hmem : q ∈ fs := by
    obtain ⟨r, hr, hqr⟩ := (Prime.dvd_prod_iff hq.prime).1 (hprod.2 ▸ hdvd)
    exact (Nat.prime_dvd_prime_iff_eq hq (hprime r hr)).1 hqr ▸ hr
  exact fun h => hne q hmem (by rw [powmodLoop_bitlen]; exact (cast_pow_eq_one _).1 h)

theorem prime_107361793816595537 : Nat.Prime 107361793816595537 :=
  prime_of_certificate 3 [2, 2, 2, 2, 16699, 85831, 4681609]
    (by simp only [List.forall_mem_cons, List.not_mem_nil, IsEmpty.forall_iff, implies_true, and_true]; norm_num)
    (by decide +kernel) (by decide +kernel) (by decide +kernel)

theorem prime_44706919 : Nat.Prime 44706919 :=
  prime_of_certificate 6 [2, 3, 797, 9349]
    (by simp only [List.forall_mem_cons, List.not_mem_nil, IsEmpty.forall_iff, implies_true, and_true]; norm_num)
    (by decide +kernel) (by decide +kernel) (by decide +kernel)

theorem prime_174723607534414371449 : Nat.Prime 174723607534414371449 :=
  prime_of_certificate 3 [2, 2, 2, 17, 59, 4051, 120233, 44706919]
    (by simp only [List.forall_mem_cons, List.not_mem_nil, IsEmpty.forall_iff, implies_true, and_true, prime_44706919]; norm_num)
    (by decide +kernel) (by decide +kernel) (by decide +kernel)

theorem prime_545358713 : Nat.Prime 545358713 :=
  prime_of_certificate 5 [2, 2, 2, 41, 59, 28181]
    (by simp only [List.forall_mem_cons, List.not_mem_nil, IsEmpty.forall_iff, implies_true, and_true]; norm_num)
    (by decide +kernel) (by decide +kernel) (by decide +kernel)

theorem prime_297159362677 : Nat.Prime 297159362677 :=
  prime_of_certificate 2 [2, 2, 3, 3, 11, 461, 1627771]
    (by simp only [List.forall_mem_cons, List.not_mem_nil, IsEmpty.forall_iff, implies_true, and_true]; norm_num)
    (by decide +kernel) (by decide +kernel) (by decide +kernel)

theorem prime_29047611873442575647497758179 : Nat.Prime 29047611873442575647497758179 :=
  prime_of_certificate 2 [2, 293, 305873, 545358713, 297159362677]
    (by simp only [List.forall_mem_cons, List.not_mem_nil, IsEmpty.forall_iff, implies_true, and_true, prime_545358713, prime_297159362677]; norm_num)
    (by decide +kernel) (by decide +kernel) (by decide +kernel)

theorem prime_341948486974166000522343609283189 : Nat.Prime 341948486974166000522343609283189 :=
  prime_of_certificate 2 [2, 2, 3, 3, 3, 109, 29047611873442575647497758179]
    (by simp only [List.forall_mem_cons, List.not_mem_nil, IsEmpty.forall_iff, implies_true, and_true, prime_29047611873442575647497758179]; norm_num)
    (by decide +kernel) (by decide +kernel) (by decide +kernel)

/-- `N_ORDER` is prime (the spec's general knowledge G2, proved here). -/
theorem nOrder_prime : Nat.Prime nOrder :=
  prime_of_certificate 7 [2, 2, 2, 2, 2, 2, 3, 149, 631, 107361793816595537, 174723607534414371449, 341948486974166000522343609283189]
    (by simp only [List.forall_mem_cons, List.not_mem_nil, IsEmpty.forall_iff, implies_true, and_true, prime_107361793816595537, prime_174723607534414371449, prime_341948486974166000522343609283189]; norm_num)
    (by decide +kernel) (by decide +kernel) (by decide +kernel)

theorem prime_13331831 : Nat.Prime 13331831 :=
  prime_of_certificate 13 [2, 5, 971, 1373]
    (by simp only [List.forall_mem_cons, List.not_mem_nil, IsEmpty.forall_iff, implies_true, and_true]; norm_num)
    (by decide +kernel) (by decide +kernel) (by decide +kernel)

theorem prime_173378833005251801 : Nat.Prime 173378833005251801 :=
  prime_of_certificate 6 [2, 2, 2, 5, 5, 2621, 24809, 13331831]
    (by simp only [List.forall_mem_cons, List.not_mem_nil, IsEmpty.forall_iff, implies_true, and_true, prime_13331831]; norm_num)
    (by decide +kernel) (by decide +kernel) (by decide +kernel)

theorem prime_22149492674086928081353 : Nat.Prime 22149492674086928081353 :=
  prime_of_certificate 5 [2, 2, 2, 3, 5323, 173378833005251801]
    (by simp only [List.forall_mem_cons, List.not_mem_nil, IsEmpty.forall_iff, implies_true, and_true, prime_173378833005251801]; norm_num)
    (by decide +kernel) (by decide +kernel) (by decide +kernel)

theorem prime_132896956044521568488119 : Nat.Prime 132896956044521568488119 :=
  prime_of_certificate 6 [2, 3, 22149492674086928081353]
    (by simp only [List.forall_mem_cons, List.not_mem_nil, IsEmpty.forall_iff, implies_true, and_true, prime_22149492674086928081353]; norm_num)
    (by decide +kernel) (by decide +kernel) (by decide +kernel)

theorem prime_107590001 : Nat.Prime 107590001 :=
  prime_of_certificate 3 [2, 2, 2, 2, 5, 5, 5, 5, 7, 29, 53]
    (by simp only [List.forall_mem_cons, List.not_mem_nil, IsEmpty.forall_iff, implies_true, and_true]; norm_num)
    (by decide +kernel) (by decide +kernel) (by decide +kernel)

theorem prime_255515944373312847190720520512484175977 : Nat.Prime 255515944373312847190720520512484175977 :=
  prime_of_certificate 3 [2, 2, 2, 7, 7, 11, 1627, 2657, 4423, 41201, 96557, 7240687, 107590001]
    (by simp only [List.forall_mem_cons, List.not_mem_nil, IsEmpty.forall_iff, implies_true, and_true, prime_107590001]; norm_num)
    (by decide +kernel) (by decide +kernel) (by decide +kernel)

theorem prime_205115282021455665897114700593932402728804164701536103180137503955397371 : Nat.Prime 205115282021455665897114700593932402728804164701536103180137503955397371 :=
  prime_of_certificate 10 [2, 3, 5, 29, 29, 31, 7723, 132896956044521568488119, 255515944373312847190720520512484175977]
    (by simp only [List.forall_mem_cons, List.not_mem_nil, IsEmpty.forall_iff, implies_true, and_true, prime_132896956044521568488119, prime_255515944373312847190720520512484175977]; norm_num)
    (by decide +kernel) (by decide +kernel) (by decide +kernel)

/-- `P_FIELD` is prime (the spec's general knowledge G2, proved here). -/
theorem pField_prime : Nat.Prime pField :=
  prime_of_certificate 3 [2, 3, 7, 13441, 205115282021455665897114700593932402728804164701536103180137503955397371]
    (by simp only [List.forall_mem_cons, List.not_mem_nil, IsEmpty.forall_iff, implies_true, and_true, prime_205115282021455665897114700593932402728804164701536103180137503955397371]; norm_num)
    (by decide +kernel) (by decide +kernel) (by decide +kernel)

end Sys2Proof.Machine
end

