-- ==== Sys2Proof/Laws/Step.lean ====
section
/-! SUPPORT. Everything a step can do, said once. -/

namespace Sys2Proof.Machine

theorem step_eq_of_nil {s : State} (h : s.agenda = []) : step s = completionStep (beginStep [] s) := by
  rw [step, nextStep, h]

theorem step_eq_of_cons {s : State} {l : StepLabel} {rest : List StepLabel} (h : s.agenda = l :: rest) :
    step s = performLabel l (beginStep rest s) := by
  rw [step, nextStep, h]

theorem completionStep_idle {s : State} (h : s.busy = false) : completionStep s = .next s := by
  simp [completionStep, h]

theorem completionStep_busy {s : State} {i : Instr} (h : s.busy = true) (hd : decode s.cmd = .ok i) :
    completionStep s = exec i s := by
  simp [completionStep, h, hd]

/-- What the engine's turn can do when it gives a next state: nothing, or a whole completion. -/
theorem completionStep_next {s t : State} (h : completionStep s = .next t) :
    (s.busy = false ∧ t = s) ∨
    (s.busy = true ∧ ∃ i, decode s.cmd = .ok i ∧ t = complete (commandResult s i) s) := by
  unfold completionStep at h
  split at h
  · next hb =>
    split at h
    · next i hi => exact .inr ⟨hb, i, hi, exec_next h⟩
    · cases h
  · next hb => cases h; exact .inl ⟨by simpa using hb, rfl⟩

/-- Runs compose. -/
theorem runSteps_add {a : Nat} (b : Nat) {s t : State} (h : runSteps a s = .next t) :
    runSteps (a + b) s = runSteps b t := by
  induction a generalizing s with
  | zero => cases h; simp
  | succ a ih =>
    rw [show a + 1 + b = (a + b) + 1 by omega]
    simp only [runSteps] at h ⊢
    split at h
    · exact ih h
    · cases h
    · cases h

/-- The state a step starts from, its label taken off the agenda; with nothing to come it is the engine's turn. -/
theorem step_next {s t : State} (h : step s = .next t) :
    ∃ rest, (s.agenda = [] ∧ rest = [] ∨ ∃ l, s.agenda = l :: rest) ∧
      ((∃ addr answer, s.agenda = .regRead addr :: rest ∧ t = { beginStep rest s with resp := some answer }) ∨
       (∃ addr data, s.agenda = .regWrite addr data :: rest ∧ t = regWrite addr data (beginStep rest s)) ∨
       (s.agenda = .reset :: rest ∧ t = resetStep (beginStep rest s)) ∨
       completionStep (beginStep rest s) = .next t) := by
  cases ha : s.agenda with
  | nil => rw [step_eq_of_nil ha] at h; exact ⟨[], .inl ⟨rfl, rfl⟩, .inr (.inr (.inr h))⟩
  | cons l rest =>
    rw [step_eq_of_cons ha] at h
    refine ⟨rest, .inr ⟨l, rfl⟩, ?_⟩
    cases l with
    | regRead addr =>
      obtain ⟨answer, hr⟩ := regRead_eq addr (beginStep rest s)
      simp only [performLabel, hr] at h
      cases h
      exact .inl ⟨addr, answer, rfl, rfl⟩
    | regWrite addr data => cases h; exact .inr (.inl ⟨addr, data, rfl, rfl⟩)
    | complete => exact .inr (.inr (.inr h))
    | reset => cases h; exact .inr (.inr (.inl ⟨rfl, rfl⟩))

end Sys2Proof.Machine
end

