-- ==== Sys2Proof/Tests/Slice0.lean ====
section
/-! SUPPORT. The model's own tests. Expected values come from the spec: the words of R55 and R57, the vectors of
spec/95_test_vectors.md (cited by their V number); each test looks at one step. After them, for every statement with
hypotheses, a witness that meets them. -/

namespace Sys2Proof.Tests

open Sys2Proof Sys2Proof.Machine Sys2Proof.Config

/-- The state after reset, with these steps to come. -/
def idle (agenda : List StepLabel) : State := { State.reset with agenda := agenda }

/-- The state after reset with this command in flight. -/
def inFlight (i : Instr) (agenda : List StepLabel) : State :=
  { State.reset with cmd := encode i, busy := true, agenda := agenda }

/-- The state an outcome gives; the reset state where it is a stop. -/
def stateOf : Host.Outcome State Fault Refusal → State
  | .next t => t
  | .fault _ => State.reset
  | .refused _ => State.reset

theorem stateOf_exec (i : Instr) (s : State) : exec i s = .next (stateOf (exec i s)) := by rw [exec_eq]; rfl

/-- STATUS, RX and RY after a command: what a row of spec/95 shows. -/
def shows (o : Host.Outcome State Fault Refusal) : Nat × Nat × Nat :=
  ((statusWord (stateOf o)).toNat, (stateOf o).rx.toNat, (stateOf o).ry.toNat)

/-- The reset state with the point P in PX, PY. -/
def withP (x y : Nat) : State := { State.reset with px := BitVec.ofNat 256 x, py := BitVec.ofNat 256 y }

/-- The same with Q in QX, QY. -/
def withPQ (x y x' y' : Nat) : State :=
  { withP x y with qx := BitVec.ofNat 256 x', qy := BitVec.ofNat 256 y' }

/-- The reset state with key, hash and nonce. -/
def withDZK (d z k : Nat) : State :=
  { State.reset with d := BitVec.ofNat 256 d, z := BitVec.ofNat 256 z, k := BitVec.ofNat 256 k }

/-- The reset state with these bytes in PBUF and this length. -/
def withBuf (bytes : List Byte) (len : Nat) : State :=
  { State.reset with pbuf := Memory.writeBytes [] (pbufAddr 0) bytes, plen := BitVec.ofNat 7 len }

/-! ### Well-formedness: an ill-formed value for each check -/

theorem test_wf_refuses_zero : (CommandFields.mk 0x01 false false 1).wf = false := by decide
theorem test_wf_refuses_opcode_0 : (CommandFields.mk 0x00 false false 0).wf = false := by decide
theorem test_wf_refuses_opcode_10 : (CommandFields.mk 0x0A false false 0).wf = false := by decide
theorem test_wf_refuses_msel : (CommandFields.mk 0x03 true false 0).wf = false := by decide
theorem test_wf_refuses_comp : (CommandFields.mk 0x01 false true 0).wf = false := by decide
theorem test_wf_accepts : (CommandFields.mk 0x02 true false 0).wf = true := by decide

/-! ### Decoding: words written out bit by bit from format C (R54): ZERO, COMP, MSEL, OPCODE -/

theorem test_decode_modinv_p : decode (0#22 ++ 0#1 ++ 0#1 ++ 0x01#8) = .ok (.modinv .field) := by decide
theorem test_decode_modinv_n : decode (0#22 ++ 0#1 ++ 1#1 ++ 0x01#8) = .ok (.modinv .order) := by decide
theorem test_decode_modexp_p : decode (0#22 ++ 0#1 ++ 0#1 ++ 0x02#8) = .ok (.modexp .field) := by decide
theorem test_decode_modexp_n : decode (0#22 ++ 0#1 ++ 1#1 ++ 0x02#8) = .ok (.modexp .order) := by decide
theorem test_decode_pdec : decode (0#22 ++ 0#1 ++ 0#1 ++ 0x03#8) = .ok .pdec := by decide
theorem test_decode_penc_u : decode (0#22 ++ 0#1 ++ 0#1 ++ 0x04#8) = .ok (.penc .uncompressed) := by decide
theorem test_decode_penc_c : decode (0#22 ++ 1#1 ++ 0#1 ++ 0x04#8) = .ok (.penc .compressed) := by decide
theorem test_decode_pdbl : decode (0#22 ++ 0#1 ++ 0#1 ++ 0x05#8) = .ok .pdbl := by decide
theorem test_decode_padd : decode (0#22 ++ 0#1 ++ 0#1 ++ 0x06#8) = .ok .padd := by decide
theorem test_decode_pmul : decode (0#22 ++ 0#1 ++ 0#1 ++ 0x07#8) = .ok .pmul := by decide
theorem test_decode_sign : decode (0#22 ++ 0#1 ++ 0#1 ++ 0x08#8) = .ok .sign := by decide
theorem test_decode_verify : decode (0#22 ++ 0#1 ++ 0#1 ++ 0x09#8) = .ok .verify := by decide

/-- The illegal words of V7.7. -/
def illegalWords : List Word :=
  [0x00000000, 0x0000000A, 0x000000FF, 0x00000100, 0x00000103, 0x00000105, 0x00000109, 0x00000201, 0x00000202,
   0x00000203, 0x00000209, 0x00000301, 0x00000304, 0x00000401, 0x00010001, 0x80000001, 0xFFFFFFFF]

def rejects (w : Word) : Bool :=
  match decode w with
  | .ok _ => false
  | .error _ => true

theorem test_decode_illegal : illegalWords.all rejects = true := by decide

theorem decode_ne_ok_of_rejects {w : Word} (h : rejects w = true) (i : Instr) : decode w ≠ .ok i := by
  intro hd
  simp [rejects, hd] at h

/-! ### Commands, one step each -/

-- V3.11 and V3.12: the operand is not below the modulus; the other modulus would give another value
theorem test_modinv_n_reduces : shows (exec (.modinv .order) { State.reset with a := BitVec.ofNat 256 pField }) =
    (0x02, 0xa57bdc004d93728c4bc18a61f6631708569fa14fe13edb7f8f3107a7a3e12be1, 0) := by decide +kernel
theorem test_modinv_p_fails : shows (exec (.modinv .field) { State.reset with a := BitVec.ofNat 256 pField }) =
    (0x42, 0, 0) := by decide +kernel  -- V3.8

-- V3.25 and V3.29
theorem test_modexp_n : shows (exec (.modexp .order) { State.reset with a := -1, e := 1 }) =
    (0x02, 0x14551231950b75fc4402da1732fc9bebe, 0) := by decide +kernel
theorem test_modexp_p : shows (exec (.modexp .field) { State.reset with a := 7, e := BitVec.ofNat 256 sqrtExponent }) =
    (0x02, 0x8f537eefdfc1606a0727cd69b4a7333d38ed44e3932a7179eecb4b6fba9360dc, 0) := by decide +kernel

-- V4.7 (the odd root) and V4.15 (length and lead byte do not match)
theorem test_pdec_odd : shows (exec .pdec (withBuf (0x03 :: be32 1) 33)) =
    (0x02, 1, 0xbde70df51939b94c9c24979fa7dd04ebd9b3572da7802290438af2a681895441) := by decide +kernel
theorem test_pdec_mismatch : shows (exec .pdec (withBuf (0x02 :: be32 1) 65)) = (0x22, 0, 0) := by decide +kernel

-- V4.23: the parity is that of the register value; V4.24 in a smaller form: every byte in its place
theorem test_penc_c : (stateOf (exec (.penc .compressed) (withP 0 pField))).pbuf = [(0x1C0, 0x03)] := by
  decide +kernel
theorem test_penc_u : let t := stateOf (exec (.penc .uncompressed) (withP (2 ^ 248) 3))
    t.pbuf = [(0x1C0, 0x04), (0x1C1, 0x01), (0x200, 0x03)] ∧ t.plen = 65 := by decide +kernel

-- V5.1 and V5.9
theorem test_pdbl : shows (exec .pdbl (withP gX gY)) =
    (0x02, 0xc6047f9441ed7d6d3045406e95c07cd85c778e4b8cef3ca7abac09b95c709ee5,
      0x1ae168fea63dc339a3c58419466ceaeef7f632653266d0e1236431a950cfe52a) := by decide +kernel
theorem test_pdbl_vertical : shows (exec .pdbl (withP 5 pField)) = (0x32, 0, 0) := by decide +kernel

-- R90's hand-checkable case: slope 1; and V5.13
theorem test_padd : shows (exec .padd (withPQ 1 2 3 4)) = (0x02, pField - 3, 2) := by decide +kernel
theorem test_padd_not_invertible : shows (exec .padd (withPQ 1 2 (pField + 1) 3)) = (0x42, 0, 0) := by decide +kernel

-- 5·G (double, double, add) and V5.30
theorem test_pmul : shows (exec .pmul { withP gX gY with k := 5 }) =
    (0x02, 0x2f8bde4d1a07209355b4a7250a5c5128e88b84bddc619ab7cba8d569b240efe4,
      0xd8ac222636e5e3d6d4dba9dda6c9c426f788271bab0d6840dca87d3aa6ac62d6) := by decide +kernel
theorem test_pmul_one : shows (exec .pmul { withP 5 0 with k := 1 }) = (0x02, 5, 0) := by decide +kernel

-- V6.3 (s is normalized) and V6.7 (the key is tested first)
theorem test_sign : shows (exec .sign (withDZK 2 3 7)) =
    (0x02, 0x5cbdf0646e5db4eaa398f365f2ea7a0e3d419b7e0330e39ce92bddedcac4f9bc,
      0x5337722c72c0a7bcf5d44cbe4ce193fb63139ff5b7ec95ecc67232418d038b78) := by decide +kernel
theorem test_sign_key_first : shows (exec .sign (withDZK 0 1 0)) = (0x12, 0, 0) := by decide +kernel

-- an accepted signature with small multipliers: s = 1, z = 1, r = 1, and Q = R − G for the curve point R of V4.6 with
-- x = 1; and V6.9's rejection of a hash that is 0 modulo n
/-- The point `R − G`, for `R` the curve point of V4.6. -/
def rMinusG : Except FailKind Point :=
  pointAdd ⟨1, 0x4218f20ae6c646b363db68605822fb14264ca8d2587fdd6fbc750d587e76a7ee⟩ ⟨gX, pField - gY⟩

/-- A signature that verifies. -/
def acceptedState : State :=
  match rMinusG with
  | .ok q => { withPQ 0 0 q.x q.y with z := 1, sr := 1, ss := 1 }
  | .error _ => State.reset

theorem test_verify_accepts : shows (exec .verify acceptedState) = (0x02, 1, 0) := by decide +kernel
theorem test_verify_hash_zero :
    shows (exec .verify { acceptedState with z := BitVec.ofNat 256 nOrder }) = (0x52, 0, 0) := by decide +kernel

/-! ### The port and the step -/

-- V7.2: the padding bytes of word 16 are dropped
theorem test_pbuf_word_16 :
    (stateOf (step (idle [.regWrite 0x200 0xaabbccdd]))).pbuf = [(0x200, 0xaa)] := by decide
-- V7.1: word 7 is the least significant
theorem test_operand_word_7 : (stateOf (step (idle [.regWrite 0x03C 3]))).a = 3 := by decide
-- V7.4
theorem test_read_misaligned : (stateOf (step (idle [.regRead 0x021]))).resp = some (.read 0 true) := by decide
theorem test_write_result_refused : stateOf (step (idle [.regWrite 0x180 5])) =
    { State.reset with resp := some (.write true) } := by decide
-- V7.7: reported at once
theorem test_illegal_word : stateOf (step (idle [.regWrite 0x000 0x105])) =
    { State.reset with cmd := 0x105, done := true, err := 7, resp := some (.write false) } := by decide
-- P4: a write while busy is refused
theorem test_busy_write : (stateOf (step (inFlight .padd [.regWrite 0x060 0xdeadbeef]))).px = 0 := by decide
-- the first step after reset runs the command placed for it: MODEXP of 0 to the power 0 (spec/95 section 2)
theorem test_first_step : shows (step (State.reset.withFetchWord 32 0x00000102)) = (0x02, 1, 0) := by decide +kernel

-- R60's expansions: bytes past the end of the string are 0x00; a wait of one busy read
theorem test_wrbuf : wrbuf [0x04, 0xaa, 0xbb, 0xcc, 0xdd] =
    [.regWrite 0x1C0 0x04aabbcc, .regWrite 0x1C4 0xdd000000, .regWrite 0x00C 5] := by decide
theorem test_wait : wait 1 = [.regRead 0x004, .complete, .regRead 0x004] := by decide

/-! ### Witnesses: for each statement with hypotheses, states and operands that meet them -/

theorem decode_encode (i : Instr) : decode (encode i) = .ok i := by
  cases i <;> first | decide | (rename_i x; cases x <;> decide)

/-- The invariants hold of a command in flight on the reset state. -/
theorem inv_inFlight (i : Instr) (agenda : List StepLabel) : Inv (inFlight i agenda) where
  busyDone := fun _ => rfl
  busyErr := fun _ => rfl
  busyLegal := fun _ => ⟨i, decode_encode i⟩
  failedX := fun h => absurd rfl h
  failedY := fun h => absurd rfl h
  errCode := Nat.zero_le 7
  pbuf := pbufOk_reset

theorem witness_ResetLeavesEveryRegisterZero :
    idle [.complete] = { State.reset with agenda := (idle [.complete]).agenda } := rfl

theorem witness_ResetAbandonsTheCommandInFlight :
    (∃ s : State, s.busy = true ∧ ∃ rest, s.agenda = .reset :: .complete :: rest) ∧ (∃ p : Pins, p.rst = true) :=
  ⟨⟨inFlight .pmul [.reset, .complete], rfl, [], rfl⟩, ⟨⟨true, true, false, 0, 0⟩, rfl⟩⟩

theorem witness_StepKeepsInvariant : ∃ s t : State, Inv s ∧ s.busy = true ∧ step s = .next t ∧ t.err = 1 :=
  ⟨inFlight .pmul [], _, inv_inFlight .pmul [], rfl,
    by rw [step_eq_of_nil rfl, completionStep_busy (i := .pmul) rfl (by decide), exec_eq], by decide⟩

theorem witness_StepNeverStops : ∃ s : State, Inv s ∧ s.busy = true := ⟨_, inv_inFlight .sign [], rfl⟩

theorem witness_OnlyAnIllegalWordInFlightStops :
    ∃ s : State, s.busy = true ∧ (∀ i, decode s.cmd ≠ .ok i) ∧ (∃ rest, enginesTurn s rest) ∧
      step s = .fault .illegalInFlight :=
  ⟨{ State.reset with busy := true }, rfl, decode_ne_ok_of_rejects (by decide), ⟨[], .inr ⟨rfl, rfl⟩⟩, rfl⟩

/-- Each kind of word, at both ends of its range. -/
theorem witness_ReadAnswersTheWordAndChangesNothing :
    (∃ w, ShowsWord (idle [.regRead 0x000]) 0x000 w) ∧ (∃ w, ShowsWord (idle [.regRead 0x004]) 0x004 w) ∧
    (∃ w, ShowsWord (idle [.regRead 0x008]) 0x008 w) ∧ (∃ w, ShowsWord (idle [.regRead 0x00C]) 0x00C w) ∧
    (∃ w, ShowsWord (idle [.regRead 0x020]) 0x020 w) ∧ (∃ w, ShowsWord (idle [.regRead 0x17C]) 0x17C w) ∧
    (∃ w, ShowsWord (idle [.regRead 0x180]) 0x180 w) ∧ (∃ w, ShowsWord (idle [.regRead 0x1BC]) 0x1BC w) ∧
    (∃ w, ShowsWord (idle [.regRead 0x1C0]) 0x1C0 w) ∧ (∃ w, ShowsWord (idle [.regRead 0x200]) 0x200 w) :=
  ⟨⟨_, .cmd⟩, ⟨0, .status 0 rfl rfl rfl rfl rfl⟩, ⟨0, .ctrl 0 rfl rfl⟩, ⟨0, .plen 0 rfl rfl⟩,
    ⟨_, .operand .a 0 (by decide)⟩, ⟨_, .operand .ss 7 (by decide)⟩, ⟨_, .result .rx 0 (by decide)⟩,
    ⟨_, .result .ry 7 (by decide)⟩, ⟨0, .pbuf 0 (by decide) 0 (by decide)⟩, ⟨0, .pbuf 16 (by decide) 0 (by decide)⟩⟩

/-- Misaligned, both reserved ranges at their ends, and the result registers at theirs. -/
theorem witness_RefusedAccessesChangeNothing :
    (∀ a ∈ [(0x001 : Addr), 0x3FF, 0x181], a.toNat % 4 ≠ 0) ∧
    (∀ a ∈ [(0x001 : Addr), 0x010, 0x01C, 0x204, 0x3FC], unreachableAddr a.toNat) ∧
    (∀ a ∈ [(0x180 : Addr), 0x1BC], 0x180 ≤ a.toNat ∧ a.toNat < 0x1C0 ∧ a.toNat % 4 = 0) ∧
    (idle [.regRead 0x180]).agenda = [.regRead 0x180] ∧ (idle [.regWrite 0x1BC 5]).agenda = [.regWrite 0x1BC 5] := by
  refine ⟨by decide, ?_, by decide, rfl, rfl⟩
  unfold unreachableAddr
  decide

/-- Each target of a refused write at both ends of its range, and the two that are performed. -/
theorem witness_BusyWritesAreRefused :
    (∀ a ∈ [(0x000 : Addr), 0x00C, 0x020, 0x17C, 0x1C0, 0x200],
      (inFlight .sign [.regWrite a 2]).busy = true ∧ (inFlight .sign [.regWrite a 2]).agenda = [.regWrite a 2] ∧
      (a = 0x000 ∨ a = 0x00C ∨ (a.toNat % 4 = 0 ∧ 0x020 ≤ a.toNat ∧ a.toNat < 0x180) ∨
        (a.toNat % 4 = 0 ∧ 0x1C0 ≤ a.toNat ∧ a.toNat < 0x204))) ∧
    (∀ a ∈ [(0x004 : Addr), 0x008], (inFlight .sign [.regWrite a 2]).agenda = [.regWrite a 2]) ∧
    ShowsWord (inFlight .sign [.regWrite 0x004 2]) 0x1BC ((inFlight .sign []).result .ry |>.extractLsb' 0 32) :=
  ⟨by decide, by decide, .result .ry 7 (by decide)⟩

theorem witness_IdleOperandWriteReplacesOneWord :
    ∀ r ∈ [OperandReg.a, .k, .ss], ∀ j ∈ [0, 7],
      (idle [.regWrite (BitVec.ofNat 10 (r.base + 4 * j)) 5]).busy = false ∧ j < 8 := by decide

theorem witness_IdlePbufWriteReplacesItsBytes :
    ∀ j ∈ [0, 15, 16], (idle [.regWrite (BitVec.ofNat 10 (0x1C0 + 4 * j)) 5]).busy = false ∧ j ≤ 16 ∧
      (idle [.regWrite (BitVec.ofNat 10 (0x1C0 + 4 * j)) 5]).pbuf.wf := by decide

theorem witness_WritesToPlenCtrlStatus :
    (idle [.regWrite 0x00C 5]).busy = false ∧
    ∀ a ∈ [(0x00C : Addr), 0x008, 0x004], (idle [.regWrite a 5]).agenda = [.regWrite a 5] := by decide

theorem witness_AcknowledgeKeepsTheOutcome :
    ∃ s : State, s.done = true ∧ s.err = 4 ∧ ∃ rest, s.agenda = ackDone ++ rest :=
  ⟨{ idle ackDone with done := true, err := 4 }, rfl, rfl, [], rfl⟩

theorem witness_IssueOfALegalWord :
    ∃ s : State, s.busy = false ∧ s.done = true ∧ s.err = 3 ∧ ∃ rest, s.agenda = cmd .pdbl ++ rest :=
  ⟨{ idle (cmd .pdbl) with done := true, err := 3 }, rfl, rfl, rfl, [], rfl⟩

/-- Illegal words of each kind of R57 (`test_decode_illegal` has them all), written while idle and while busy. -/
theorem witness_IllegalWordIsReportedAtOnce :
    [0x00000000, 0x0000000A, 0x80000001, 0x00000103, 0x00000201, 0xFFFFFFFF].all
      (fun w => legalWords.all fun p => p.1 != w) = true ∧
    (∀ i, ((0x0000000A : Word), i) ∉ legalWords) ∧
    (idle [.regWrite 0x000 0xA]).busy = false ∧ (inFlight .sign [.regWrite 0x000 0xA]).busy = true :=
  ⟨by decide, fun i h => absurd (List.all_eq_true.1 (by decide : legalWords.all (fun p => p.1 != 0xA) = true) _ h)
    (by simp), rfl, rfl⟩

theorem witness_EightWordWritesSetTheRegister :
    ∀ r ∈ [OperandReg.a, .ss], (idle (wr256 r 3 ++ rd (r.base + 4 * 7) ++ [])).busy = false ∧
      (idle (wr256 r 3 ++ rd (r.base + 4 * 7) ++ [])).agenda = wr256 r 3 ++ (rd (r.base + 4 * 7) ++ []) := by decide

theorem witness_ByteConversionsAreInverse : ∃ c : List Byte, c.length = 32 := ⟨be32 1, by decide⟩

/-- The engine's turn on the agenda, and with the agenda empty; and a table word. -/
theorem witness_StepRunsTheCommandInFlight :
    (∃ rest, (inFlight .padd [.complete]).busy = true ∧ decode (inFlight .padd [.complete]).cmd = .ok .padd ∧
      enginesTurn (inFlight .padd [.complete]) rest) ∧
    enginesTurn (inFlight .padd []) [] ∧ decodeTableWord 32 0x00000204 = some (.penc .compressed) :=
  ⟨⟨[], rfl, by decide, .inl rfl⟩, .inr ⟨rfl, rfl⟩, by decide⟩

theorem witness_QuiescentStateStays :
    quiescent (idle [.complete]) = true ∧ enginesTurn (idle [.complete]) [] ∧ enginesTurn (idle []) [] ∧
    programEnded { idle [] with done := true, resp := some (.write false) } = true ∧ (inFlight .pdbl []).busy = true :=
  ⟨rfl, .inl rfl, .inr ⟨rfl, rfl⟩, rfl, rfl⟩

theorem witness_CommandsLeaveOperandsAndBuffer :
    (∀ f, Instr.sign ≠ .penc f) ∧ ∃ t, exec .sign (withDZK 1 1 1) = .next t :=
  ⟨fun _ h => (nomatch h), _, stateOf_exec _ _⟩

theorem witness_PencLeavesRegistersAndResults :
    ∃ s t : State, s.pbuf.wf ∧ s.pbuf ≠ [] ∧ exec (.penc .compressed) s = .next t :=
  ⟨withBuf [0x04, 0x01] 2, _, by decide, by decide, stateOf_exec _ _⟩

/-- Two states that differ outside the inputs of PDBL, of PENC and of PDEC. -/
theorem witness_OutcomeDependsOnInputsOnly :
    ∃ s t : State, s ≠ t ∧ s.pbuf.wf ∧ t.pbuf.wf ∧ sameInputs s t .pdbl ∧ sameInputs s t (.penc .uncompressed) ∧
      sameInputs s t .pdec ∧ (∀ f, Instr.pdbl ≠ .penc f) :=
  ⟨withBuf [0x04] 65, { withBuf [0x04] 65 with d := 1, rx := 7 }, by decide, by decide, by decide, ⟨rfl, rfl⟩,
    ⟨rfl, rfl⟩, ⟨fun _ _ => rfl, rfl⟩, fun _ h => (nomatch h)⟩

theorem witness_CompletionIgnoresInterleavedAccesses :
    ∃ (s : State) (accesses : List StepLabel), s.busy = true ∧ decode s.cmd = .ok .padd ∧ accesses.length = 2 ∧
      (∀ l ∈ accesses, l.isHost = true) ∧ s.agenda = accesses ++ .complete :: [] :=
  ⟨inFlight .padd [.regWrite 0x060 0xdeadbeef, .regWrite 0x008 1, .complete],
    [.regWrite 0x060 0xdeadbeef, .regWrite 0x008 1], rfl, by decide, rfl, by decide, rfl⟩

theorem witness_EveryCommandCompletes :
    ∃ s : State, s.busy = true ∧ decode s.cmd = .ok .sign ∧ s.agenda.length = 2 ∧ ∀ l ∈ s.agenda, l ≠ .reset :=
  ⟨inFlight .sign (rd 0x004 ++ rd 0x180), rfl, by decide, rfl, by decide⟩

/-- A cycle in which PDBL completes, with an access at this address. -/
def completingCycle (we : Bool) (addr : Addr) (wdata : Word) : Pins := ⟨false, true, we, addr, wdata⟩

/-- A read of the last result word for every command, and for PENC of the first word of PBUF, which it has just written;
writes at both ends of each range; and a legal word written to CMD. -/
theorem witness_CompletionGoesBeforeTheAccess :
    (∀ p : Pins, (inFlight .pdbl (cycleLabels p true)).busy = true ∧
      decode (inFlight .pdbl (cycleLabels p true)).cmd = .ok .pdbl) ∧
    (∀ i, ∃ w, ShowsWord (stateOf (exec i (inFlight i (cycleLabels (completingCycle false 0x1BC 0) true)))) 0x1BC w) ∧
    (∃ w, ShowsWord (stateOf (exec (.penc .compressed)
      (inFlight (.penc .compressed) (cycleLabels (completingCycle false 0x1C0 0) true)))) 0x1C0 w ∧ w = 0x02000000) ∧
    (∀ a ∈ [(0x000 : Addr), 0x00C, 0x020, 0x17C, 0x1C0, 0x200],
      (completingCycle true a 1).rst = false ∧ (completingCycle true a 1).req = true ∧
      (completingCycle true a 1).addr.toNat % 4 = 0 ∧
      (a.toNat < 0x010 ∨ (0x020 ≤ a.toNat ∧ a.toNat < 0x180) ∨ (0x1C0 ≤ a.toNat ∧ a.toNat < 0x204))) ∧
    decode (completingCycle true 0x000 1).wdata = .ok (.modinv .field) :=
  ⟨fun _ => ⟨rfl, decode_encode .pdbl⟩, fun _ => ⟨_, .result .ry 7 (by decide)⟩,
    ⟨_, .pbuf 0 (by decide) 0x02000000 (by decide +kernel), rfl⟩, by decide, by decide⟩

/-- Both failing operands and an operand that is not below the modulus, for both moduli. -/
theorem witness_ModinvGivesTheInverse : ∀ sel, ∀ v ∈ [0, mselMod sel, 1, mselMod sel + 1],
    (BitVec.ofNat 256 v).toNat = v ∧ (v = 0 ∨ v = mselMod sel ∨ v ≠ 0 ∧ v ≠ mselMod sel) ∧
    ∃ s : State, s.a.toNat = v := by
  intro sel v hv
  have h : (BitVec.ofNat 256 v).toNat = v := by cases sel <;> revert hv <;> revert v <;> decide
  exact ⟨h, by by_cases h0 : v = 0 <;> by_cases h1 : v = mselMod sel <;> simp [h0, h1],
    { State.reset with a := BitVec.ofNat 256 v }, h⟩

theorem witness_PdecDecodesThePoint :
    (let s := withBuf [0x04] 65; s.plen = 65 ∧ s.pbufByte 0 = 0x04) ∧
    (let s := withBuf [0x02] 33; s.plen = 33 ∧ s.pbufByte 0 = 0x02) ∧
    (let s := withBuf [0x03] 33; s.plen = 33 ∧ s.pbufByte 0 = 0x03) ∧
    (∀ s ∈ [withBuf [0x04] 33, withBuf [0x02] 65, withBuf [0x04] 64, withBuf [0x06] 65, withBuf [0x01] 33],
      ¬(s.plen = 65 ∧ s.pbufByte 0 = 0x04) ∧ ¬(s.plen = 33 ∧ (s.pbufByte 0 = 0x02 ∨ s.pbufByte 0 = 0x03))) := by
  decide

theorem witness_PencEncodesThePoint : (withBuf [0x04, 0x01] 2).pbuf.wf := by decide

theorem witness_EncodeThenDecodeIsIdentity :
    (withP gX gY).pbuf.wf ∧ 1 ≤ (withP gX gY).py.toNat ∧ (withP gX gY).py.toNat < pField ∧
      (withP gX gY).py.toNat ^ 2 % pField = ((withP gX gY).px.toNat ^ 3 + 7) % pField := by decide +kernel

theorem witness_PdblDoublesThePoint :
    (∀ y ∈ [0, pField], (withP 5 y).py.toNat % pField = 0) ∧
    (∀ y ∈ [1, pField - 1, pField + 1, 2 ^ 256 - 1], (withP 5 y).py.toNat % pField ≠ 0) := by decide +kernel

/-- One state for each of R90's four cases, and the boundary where x differs by exactly p. -/
theorem witness_PaddAddsThePoints :
    (let s := withPQ 1 2 1 2; s.px = s.qx ∧ s.py = s.qy) ∧
    (let s := withPQ 1 2 1 (pField + 2); s.px = s.qx ∧ s.py ≠ s.qy) ∧
    (let s := withPQ 1 2 (pField + 1) 2; s.px ≠ s.qx ∧ ((s.px.toNat : Int) - s.qx.toNat) % pField = 0) ∧
    (let s := withPQ 1 2 (pField + 2) 2; s.px ≠ s.qx ∧ ((s.px.toNat : Int) - s.qx.toNat) % pField ≠ 0) := by
  decide +kernel

theorem witness_PointMulIsDoubleAndAdd : ∃ k : Nat, 1 ≤ k := ⟨1, le_refl 1⟩

def givesPoint : Except FailKind Point → Bool
  | .ok _ => true
  | .error _ => false

def failsAs (kind : FailKind) : Except FailKind Point → Bool
  | .ok _ => false
  | .error k => k == kind

/-- Values; and each failure: multiplier 0, a vertical tangent, and x equal modulo p only, which needs PX ≥ p. -/
theorem witness_PmulDeliversTheMultiple :
    (withP 1 1).k = 0 ∧ (let s := { withP 1 1 with k := 1 }; s.k = 1) ∧ givesPoint (pointMul ⟨gX, gY⟩ 3) = true ∧
    failsAs .invalidScalarRange (pointMul ⟨1, 1⟩ 0) = true ∧
    failsAs .pointAtInfinityUndefined (pointMul ⟨5, 0⟩ 2) = true ∧
    failsAs .notInvertible (pointMul ⟨(withP pField 1).px.toNat, 1⟩ 3) = true := by decide +kernel

theorem witness_PointResultsAreCanonical :
    ∃ s t t' t'' : State, 2 ≤ s.k.toNat ∧ exec .pdbl s = .next t ∧ exec .padd s = .next t' ∧ exec .pmul s = .next t'' :=
  ⟨{ withPQ (pField + 1) 2 3 4 with k := 2 }, _, _, _, by decide, stateOf_exec _ _, stateOf_exec _ _, stateOf_exec _ _⟩

theorem witness_NonCanonicalOperandsAreNotReduced :
    (let s := withPQ 1 2 (pField + 1) 2; s.qx.toNat = s.px.toNat + pField) ∧
    (let s := withPQ 1 2 1 (pField + 2); s.qx = s.px ∧ s.qy.toNat = s.py.toNat + pField) ∧
    (withP 5 pField).py.toNat = pField := by decide +kernel

theorem witness_generator_onCurve : onCurve ⟨gX, gY⟩ := by unfold onCurve; decide +kernel

/-- A sum, and inverse points. -/
theorem witness_PaddIsTheGroupLaw :
    Nat.Prime pField ∧
    (∃ s t : State, onCurve s.pointP ∧ onCurve s.pointQ ∧ exec .padd s = .next t ∧ t.err = 0) ∧
    (∃ s t : State, onCurve s.pointP ∧ onCurve s.pointQ ∧ exec .padd s = .next t ∧ t.err ≠ 0) := by
  refine ⟨pField_prime, ⟨withPQ gX gY gX gY, _, ?_, ?_, stateOf_exec _ _, ?_⟩,
    ⟨withPQ gX gY gX (pField - gY), _, ?_, ?_, stateOf_exec _ _, ?_⟩⟩ <;>
    first | (unfold onCurve; decide +kernel) | decide +kernel

theorem witness_PmulIsTheScalarMultiple :
    Nat.Prime pField ∧ ∃ s t : State, onCurve s.pointP ∧ exec .pmul s = .next t ∧ t.err = 0 ∧ s.k = 5 := by
  refine ⟨pField_prime, { withP gX gY with k := 5 }, _, ?_, stateOf_exec _ _, ?_, rfl⟩ <;>
    first | (unfold onCurve; decide +kernel) | decide +kernel

/-- Both ends of the valid range. -/
theorem witness_PublicKeyNeverFails : ∀ k ∈ [1, nOrder - 1],
    (withP gX gY).px.toNat = gX ∧ (withP gX gY).py.toNat = gY ∧ validScalar (BitVec.ofNat 256 k).toNat := by
  decide +kernel

/-- The ends of the valid range and the values beside them, for the key and for the nonce. -/
theorem witness_SignIsOneAttempt :
    (∀ v ∈ [0, nOrder, 2 ^ 256 - 1], ¬ validScalar (withDZK v 1 1).d.toNat ∧
      validScalar (withDZK 1 1 v).d.toNat ∧ ¬ validScalar (withDZK 1 1 v).k.toNat) ∧
    (∀ v ∈ [1, nOrder - 1], validScalar (withDZK v 1 v).d.toNat ∧ validScalar (withDZK v 1 v).k.toNat) := by
  decide +kernel

theorem witness_SignatureIsLowS : ∃ s t : State, exec .sign s = .next t ∧ t.err = 0 :=
  ⟨withDZK 2 3 7, _, stateOf_exec _ _, by decide +kernel⟩

/-- An accepted signature, and three that are not: each bound at its edge. -/
theorem witness_VerifyAcceptsExactly :
    (stateOf (exec .verify acceptedState)).rx = 1 ∧ acceptedState.sr.toNat < nOrder ∧ acceptedState.ss.toNat < nOrder ∧
    (∃ w, w < nOrder ∧ acceptedState.ss.toNat * w % nOrder = 1) ∧
    (∀ s ∈ [{ acceptedState with sr := BitVec.ofNat 256 nOrder }, { acceptedState with ss := BitVec.ofNat 256 nOrder }],
      ¬ (s.sr.toNat < nOrder ∧ s.ss.toNat < nOrder)) :=
  ⟨by decide +kernel, by decide +kernel, by decide +kernel, ⟨1, by decide, by decide +kernel⟩, by decide +kernel⟩

theorem witness_VerifyRejectsDegenerateInputs :
    ({ acceptedState with sr := 0 }).sr = 0 ∧ ({ acceptedState with ss := 0 }).ss = 0 ∧
    nOrder ≤ ({ acceptedState with sr := BitVec.ofNat 256 nOrder }).sr.toNat ∧
    nOrder ≤ ({ acceptedState with ss := -1 }).ss.toNat ∧
    ({ acceptedState with z := BitVec.ofNat 256 nOrder }).z.toNat % nOrder = 0 := by decide +kernel

/-- Key 1, hash 1, nonce 1 (V6.1), and the public key G. -/
theorem witness_SignedMessagesVerify :
    ∃ (s v t : State) (q : Point), exec .sign s = .next t ∧ t.err = 0 ∧ s.z.toNat % nOrder ≠ 0 ∧
      pointMul generator s.d.toNat = .ok q ∧ v.qx.toNat = q.x ∧ v.qy.toNat = q.y ∧ v.z = s.z ∧ v.sr = t.rx ∧
      v.ss = t.ry :=
  let t := stateOf (exec .sign (withDZK 1 1 1))
  ⟨withDZK 1 1 1, { withPQ 0 0 gX gY with z := 1, sr := t.rx, ss := t.ry }, t, generator, stateOf_exec _ _,
    by decide +kernel, by decide +kernel, rfl, by decide +kernel, by decide +kernel, rfl, rfl, rfl⟩

end Sys2Proof.Tests
end

/-!
# Proofs for `spec/00_scope.md`

What a command delivers depends on its inputs only (R8), and the point formulas of R86 to R88 are the group law of
secp256k1 on canonical points of the curve (G5).
-/

namespace Sys2Proof.Machine

open Sys2Proof.Config

/-! ### Commands read their input registers only (R8, R17) -/

theorem pbufBytes_congr {s t : State} {lo n : Nat} (h : ∀ i < n, s.pbufByte (lo + i) = t.pbufByte (lo + i)) :
    s.pbufBytes lo n = t.pbufBytes lo n :=
  List.map_congr_left fun i hi => h i (List.mem_range.1 hi)

/-- States that agree on a command's inputs evaluate it alike. -/
theorem commandResult_congr {s t : State} {i : Instr} (h : sameInputs s t i) :
    commandResult s i = commandResult t i := by
  cases i with
  | modinv m =>
    have ha : s.a = t.a := h
    simp only [commandResult, ha]
  | modexp m =>
    obtain ⟨ha, he⟩ := h
    simp only [commandResult, ha, he]
  | pdec =>
    obtain ⟨hbytes, hlen⟩ := h
    have hbuf : s.pbufBytes 0 65 = t.pbufBytes 0 65 := pbufBytes_congr fun i hi => by
      rw [Nat.zero_add]
      exact hbytes i (by omega)
    simp only [commandResult, hbuf, hlen]
  | penc f =>
    obtain ⟨hx, hy⟩ := h
    simp only [commandResult, hx, hy]
  | pdbl =>
    obtain ⟨hx, hy⟩ := h
    simp only [commandResult, State.pointP, hx, hy]
  | padd =>
    obtain ⟨hx, hy, hqx, hqy⟩ := h
    simp only [commandResult, State.pointP, State.pointQ, hx, hy, hqx, hqy]
  | pmul =>
    obtain ⟨hx, hy, hk⟩ := h
    simp only [commandResult, State.pointP, hx, hy, hk]
  | sign =>
    obtain ⟨hd, hz, hk⟩ := h
    simp only [commandResult, hd, hz, hk]
  | verify =>
    obtain ⟨hqx, hqy, hz, hr, hs⟩ := h
    simp only [commandResult, State.pointQ, hqx, hqy, hz, hr, hs]

theorem complete_err_congr (r : CmdResult) (s t : State) : (complete r s).err = (complete r t).err := by
  cases r <;> rfl

/-- A result that is no encoded point determines RX and RY. -/
theorem complete_results_congr {r : CmdResult} (h : ∀ len bytes, r ≠ .buffer len bytes) (s t : State) :
    (complete r s).rx = (complete r t).rx ∧ (complete r s).ry = (complete r t).ry := by
  cases r with
  | buffer len bytes => exact absurd rfl (h len bytes)
  | value x y => exact ⟨rfl, rfl⟩
  | fail kind => exact ⟨rfl, rfl⟩

theorem length_encodePoint_le (x y : Reg) (f : PointForm) : (encodePoint x y f).length ≤ 65 := by
  cases f <;> simp [encodePoint]

/-- Settles O29: a command evaluates alike on equal inputs, and its result alone determines what it writes. -/
theorem outcomeDependsOnInputsOnly : Obligations.OutcomeDependsOnInputsOnly := by
  intro i s t hs ht hin
  have hres := commandResult_congr hin
  refine ⟨_, _, exec_eq i s, exec_eq i t, ?_, ?_, ?_⟩
  · rw [hres]
    exact complete_err_congr _ s t
  · intro hi
    rw [hres]
    exact complete_results_congr (commandResult_ne_buffer hi) s t
  · rintro f rfl
    rw [hres]
    refine ⟨rfl, fun j hj => ?_⟩
    have hlen := length_encodePoint_le t.px t.py f
    calc (complete (commandResult t (.penc f)) s).pbufByte j
        = (encodePoint t.px t.py f).getD j 0 := pbufByte_deliverBuffer hs _ _ (by omega) (by omega)
      _ = (complete (commandResult t (.penc f)) t).pbufByte j :=
          (pbufByte_deliverBuffer ht _ _ (by omega) (by omega)).symm

/-! ### The curve in the library's terms (R2) -/

@[simp] theorem secp256k1_a₁ : secp256k1.a₁ = 0 := rfl
@[simp] theorem secp256k1_a₂ : secp256k1.a₂ = 0 := rfl
@[simp] theorem secp256k1_a₃ : secp256k1.a₃ = 0 := rfl
@[simp] theorem secp256k1_a₄ : secp256k1.a₄ = 0 := rfl
@[simp] theorem secp256k1_a₆ : secp256k1.a₆ = 7 := rfl

theorem secp256k1_negY (x y : ZMod pField) : secp256k1.negY x y = -y := by
  simp [WeierstrassCurve.Affine.negY]

theorem secp256k1_addX (x₁ x₂ l : ZMod pField) : secp256k1.addX x₁ x₂ l = l * l - x₁ - x₂ := by
  simp [WeierstrassCurve.Affine.addX, sq]

theorem secp256k1_addY (x₁ x₂ y₁ l : ZMod pField) :
    secp256k1.addY x₁ x₂ y₁ l = l * (x₁ - secp256k1.addX x₁ x₂ l) - y₁ := by
  rw [WeierstrassCurve.Affine.addY, secp256k1_negY, WeierstrassCurve.Affine.negAddY]
  ring

theorem secp256k1_equation_iff (x y : ZMod pField) : secp256k1.Equation x y ↔ y ^ 2 = x ^ 3 + 7 := by
  simp [WeierstrassCurve.Affine.equation_iff]

/-- The discriminant of the curve is `-432 · 7²`. -/
theorem secp256k1_Δ_ne_zero : secp256k1.Δ ≠ 0 := by
  have hΔ : secp256k1.Δ = ((-21168 : Int) : ZMod pField) := by
    simp only [WeierstrassCurve.Δ, WeierstrassCurve.b₂, WeierstrassCurve.b₄, WeierstrassCurve.b₆,
      WeierstrassCurve.b₈, secp256k1_a₁, secp256k1_a₂, secp256k1_a₃, secp256k1_a₄, secp256k1_a₆]
    norm_num
  rw [hΔ, Ne, ZMod.intCast_zmod_eq_zero_iff_dvd]
  decide

theorem secp256k1_nonsingular_iff (x y : ZMod pField) : secp256k1.Nonsingular x y ↔ y ^ 2 = x ^ 3 + 7 := by
  rw [← WeierstrassCurve.Affine.equation_iff_nonsingular_of_Δ_ne_zero secp256k1_Δ_ne_zero, secp256k1_equation_iff]

/-- Two canonical coordinates are equal when they are equal modulo p. -/
theorem cast_inj_of_lt {a b : Nat} (ha : a < pField) (hb : b < pField) :
    (a : ZMod pField) = b ↔ a = b := by
  rw [ZMod.natCast_eq_natCast_iff', Nat.mod_eq_of_lt ha, Nat.mod_eq_of_lt hb]

/-- Being on the curve is being canonical and standing for a point of the curve's group. -/
theorem onCurve_iff (p : Point) : onCurve p ↔ p.x < pField ∧ p.y < pField ∧ ∃ g, StandsFor p g := by
  have hcast : p.y ^ 2 % pField = (p.x ^ 3 + 7) % pField ↔
      (p.y : ZMod pField) ^ 2 = (p.x : ZMod pField) ^ 3 + 7 := by
    rw [← ZMod.natCast_eq_natCast_iff']
    push_cast
    rfl
  rw [onCurve, hcast, ← secp256k1_nonsingular_iff]
  refine and_congr_right fun _ => and_congr_right fun _ => ⟨fun h => ⟨_, h, rfl⟩, ?_⟩
  rintro ⟨g, h, -⟩
  exact h

/-- A computed point or failure represents a group element: a canonical point on the curve that stands for it, or
`PointAtInfinityUndefined` for the point at infinity. -/
def Represents (r : Except FailKind Point) (g : secp256k1.Point) : Prop :=
  match r with
  | .ok p => onCurve p ∧ StandsFor p g
  | .error kind => kind = .pointAtInfinityUndefined ∧ g = 0

theorem represents_infinity : Represents (.error .pointAtInfinityUndefined) 0 := ⟨rfl, rfl⟩

/-! ### `mod` and `inv` in the field of p elements -/

theorem cast_modulo (a : Int) : ((modulo a pField : Nat) : ZMod pField) = a := by
  rw [← Int.cast_natCast, modulo_cast a pField_pos, ZMod.intCast_mod]

theorem modulo_eq_zero_iff_cast (a : Int) : modulo a pField = 0 ↔ (a : ZMod pField) = 0 := by
  rw [modulo_eq_zero_iff a pField_pos, ZMod.intCast_zmod_eq_zero_iff_dvd]

/-! ### Multiples by the leading bits (R88) -/

/-- The multiple by the bits of `k` from `i` up, from that by the bits above `i`. -/
theorem nsmul_div_two_pow {M : Type*} [AddMonoid M] (k i : Nat) (g : M) :
    (k / 2 ^ i) • g = (k / 2 ^ (i + 1)) • g + (k / 2 ^ (i + 1)) • g + bit k i • g := by
  rw [div_pow_succ_bit k i, add_nsmul, two_mul, add_nsmul]

section PrimeField

variable [Fact (Nat.Prime pField)]

/-- In the field of p elements `inv` succeeds on everything but 0, with the field's inverse. -/
theorem exists_inv_eq_field_inv {a : Int} (ha : (a : ZMod pField) ≠ 0) :
    ∃ i, inv a pField = .ok i ∧ (i : ZMod pField) = (a : ZMod pField)⁻¹ := by
  have hcop : Nat.gcd (modulo a pField) pField = 1 := by
    rw [Nat.gcd_comm]
    refine (Nat.Prime.coprime_iff_not_dvd Fact.out).2 fun hdvd => ha ?_
    rw [← cast_modulo, (ZMod.natCast_eq_zero_iff _ _).2 hdvd]
  obtain ⟨i, hi⟩ := exists_inv_eq_ok a pField hcop
  obtain ⟨-, hmul⟩ := (inv_eq_ok_iff a (Nat.Prime.one_lt Fact.out) pField_lt).1 hi
  have hcast : ((a * i % (pField : Int) : Int) : ZMod pField) = 1 := by rw [hmul, Int.cast_one]
  rw [ZMod.intCast_mod] at hcast
  exact ⟨i, hi, eq_inv_of_mul_eq_one_right (by exact_mod_cast hcast)⟩

/-! ### The point formulas are the group law (R86, R87) -/

/-- The line through `p` and `q`, their tangent if they are equal, is not vertical, and `r` has the canonical
coordinates of its third point with the curve, reflected. -/
structure IsLineSum (p q r : Point) : Prop where
  notVertical : ¬((p.x : ZMod pField) = q.x ∧ (p.y : ZMod pField) = secp256k1.negY q.x q.y)
  x_lt : r.x < pField
  y_lt : r.y < pField
  x_eq : (r.x : ZMod pField) = secp256k1.addX p.x q.x (secp256k1.slope p.x q.x p.y q.y)
  y_eq : (r.y : ZMod pField) = secp256k1.addY p.x q.x p.y (secp256k1.slope p.x q.x p.y q.y)

/-- The last lines of R86 and R87: with the slope of the line, they give its third point, reflected. -/
theorem isLineSum_of_slope {p q : Point} {lam : Nat} {sx : Int}
    (hline : ¬((p.x : ZMod pField) = q.x ∧ (p.y : ZMod pField) = secp256k1.negY q.x q.y))
    (hlam : (lam : ZMod pField) = secp256k1.slope p.x q.x p.y q.y)
    (hsx : (sx : ZMod pField) = lam * lam - p.x - q.x) :
    IsLineSum p q ⟨modulo sx pField, modulo (lam * (p.x - (modulo sx pField : Nat)) - p.y) pField⟩ := by
  have hx : ((modulo sx pField : Nat) : ZMod pField) =
      secp256k1.addX p.x q.x (secp256k1.slope p.x q.x p.y q.y) := by
    rw [cast_modulo, hsx, secp256k1_addX, hlam]
  refine ⟨hline, modulo_lt _ pField_pos, modulo_lt _ pField_pos, hx, ?_⟩
  rw [secp256k1_addY, ← hx, ← hlam, cast_modulo]
  push_cast
  rfl

/-- The tangent formula, where the tangent is not vertical. -/
theorem pointDouble_isLineSum {p : Point} (hy : modulo p.y pField ≠ 0) :
    ∃ r, pointDouble p = .ok r ∧ IsLineSum p p r := by
  have hyc : (p.y : ZMod pField) ≠ secp256k1.negY p.x p.y := by
    rw [Ne, modulo_eq_zero_iff_cast, Int.cast_natCast] at hy
    rw [secp256k1_negY]
    exact ZMod.ne_neg_self (by decide) hy
  have h2y : ((modulo (2 * p.y) pField : Nat) : ZMod pField) = p.y - secp256k1.negY p.x p.y := by
    rw [secp256k1_negY, cast_modulo]
    push_cast
    ring
  obtain ⟨i, hi, hicast⟩ := exists_inv_eq_field_inv (a := (modulo (2 * p.y) pField : Nat)) (by
    rw [Int.cast_natCast, h2y]
    exact sub_ne_zero.2 hyc)
  have hlam : ((modulo (3 * p.x * p.x * i) pField : Nat) : ZMod pField) = secp256k1.slope p.x p.x p.y p.y := by
    rw [WeierstrassCurve.Affine.slope_of_Y_ne rfl hyc, cast_modulo]
    push_cast
    rw [hicast, Int.cast_natCast, h2y]
    simp only [secp256k1_a₁, secp256k1_a₂, secp256k1_a₄]
    ring
  rw [pointDouble, if_neg hy, hi]
  exact ⟨_, rfl, isLineSum_of_slope (fun h => hyc h.2) hlam (by push_cast; ring)⟩

/-- The chord formula, where the x-coordinates differ modulo p. -/
theorem pointAdd_isLineSum {p q : Point} (hx : (p.x : ZMod pField) ≠ q.x) :
    ∃ r, pointAdd p q = .ok r ∧ IsLineSum p q r := by
  have hdx : ((modulo (p.x - q.x) pField : Nat) : ZMod pField) = p.x - q.x := by
    rw [cast_modulo]
    push_cast
    rfl
  have hne : p.x ≠ q.x := fun h => hx (by rw [h])
  obtain ⟨i, hi, hicast⟩ := exists_inv_eq_field_inv (a := (modulo (p.x - q.x) pField : Nat)) (by
    rw [Int.cast_natCast, hdx]
    exact sub_ne_zero.2 hx)
  have hlam : ((modulo ((p.y - q.y) * i) pField : Nat) : ZMod pField) = secp256k1.slope p.x q.x p.y q.y := by
    rw [WeierstrassCurve.Affine.slope_of_X_ne hx, cast_modulo]
    push_cast
    rw [hicast, Int.cast_natCast, hdx, div_eq_mul_inv]
  rw [pointAdd, if_neg fun h => hne h.1, if_neg hne, hi]
  exact ⟨_, rfl, isLineSum_of_slope (fun h => hx h.1) hlam (by push_cast; rfl)⟩

/-- The reflected third point of a line that is not vertical is the sum. -/
theorem represents_of_isLineSum {p q r : Point} {g h : secp256k1.Point} (hg : StandsFor p g) (hh : StandsFor q h)
    (hr : IsLineSum p q r) : Represents (.ok r) (g + h) := by
  obtain ⟨hp, rfl⟩ := hg
  obtain ⟨hq, rfl⟩ := hh
  have hsum : StandsFor r (.some _ _ hp + .some _ _ hq) := by
    rw [WeierstrassCurve.Affine.Point.add_some hr.notVertical]
    refine ⟨?_, ?_⟩
    · rw [hr.x_eq, hr.y_eq]
      exact WeierstrassCurve.Affine.nonsingular_add hp hq hr.notVertical
    · simp only [hr.x_eq, hr.y_eq]
  exact ⟨(onCurve_iff r).2 ⟨hr.x_lt, hr.y_lt, _, hsum⟩, hsum⟩

/-- `point_double` is doubling in the curve's group. -/
theorem pointDouble_represents {p : Point} {g : secp256k1.Point} (hg : StandsFor p g) :
    Represents (pointDouble p) (g + g) := by
  by_cases hy : modulo p.y pField = 0
  · -- a vertical tangent: the point is its own inverse
    obtain ⟨hp, rfl⟩ := hg
    have hyc : (p.y : ZMod pField) = secp256k1.negY p.x p.y := by
      rw [modulo_eq_zero_iff_cast, Int.cast_natCast] at hy
      rw [secp256k1_negY, hy, neg_zero]
    rw [pointDouble, if_pos hy, WeierstrassCurve.Affine.Point.add_self_of_Y_eq hyc]
    exact represents_infinity
  · obtain ⟨r, hr, hline⟩ := pointDouble_isLineSum hy
    rw [hr]
    exact represents_of_isLineSum hg hg hline

/-- `point_add` is addition in the curve's group. -/
theorem pointAdd_represents {p q : Point} {g h : secp256k1.Point} (hp : onCurve p) (hq : onCurve q)
    (hg : StandsFor p g) (hh : StandsFor q h) : Represents (pointAdd p q) (g + h) := by
  obtain ⟨hpx, hpy, -⟩ := hp
  obtain ⟨hqx, hqy, -⟩ := hq
  obtain ⟨hns, rfl⟩ := hg
  obtain ⟨hns', rfl⟩ := hh
  by_cases hx : p.x = q.x
  · by_cases hy : p.y = q.y
    · -- equal points are doubled
      obtain rfl : p = q := by cases p; cases q; exact congrArg₂ Point.mk hx hy
      rw [pointAdd, if_pos ⟨rfl, rfl⟩]
      exact pointDouble_represents ⟨hns, rfl⟩
    · -- equal x, different y: the points are inverse to each other
      have hxc : (p.x : ZMod pField) = q.x := by rw [hx]
      have hyc : (p.y : ZMod pField) = secp256k1.negY q.x q.y :=
        (WeierstrassCurve.Affine.Y_eq_of_X_eq hns.left hns'.left hxc).resolve_left
          fun h => hy ((cast_inj_of_lt hpy hqy).1 h)
      rw [pointAdd, if_neg fun h => hy h.2, if_pos hx, WeierstrassCurve.Affine.Point.add_of_Y_eq hxc hyc]
      exact represents_infinity
  · have hxc : (p.x : ZMod pField) ≠ q.x := fun h => hx ((cast_inj_of_lt hpx hqx).1 h)
    obtain ⟨r, hr, hline⟩ := pointAdd_isLineSum hxc
    rw [hr]
    exact represents_of_isLineSum ⟨hns, rfl⟩ ⟨hns', rfl⟩ hline

/-! ### Double-and-add is the scalar multiple (R88) -/

/-- The loop invariant of double-and-add: the accumulator stands for the multiple by the bits already read. -/
theorem pointMulLoop_standsFor {p r : Point} {g : secp256k1.Point} (hp : onCurve p) (hg : StandsFor p g) (k : Nat) :
    ∀ (i : Nat) (acc : Point), onCurve acc → StandsFor acc ((k / 2 ^ i) • g) →
      pointMulLoop p k i acc = .ok r → onCurve r ∧ StandsFor r (k • g)
  | 0, acc, hacc, hmul, hr => by
    cases hr
    exact ⟨hacc, by simpa using hmul⟩
  | i + 1, acc, _, hmul, hr => by
    have hdouble := pointDouble_represents hmul
    have hbits := nsmul_div_two_pow k i g
    rw [pointMulLoop] at hr
    split at hr
    · cases hr
    · next twice htwice =>
      rw [htwice] at hdouble
      obtain ⟨hcurve, hstands⟩ := hdouble
      split at hr
      · next hbit =>
        have hadd := pointAdd_represents hcurve hp hstands hg
        rw [hbit, one_nsmul] at hbits
        split at hr
        · cases hr
        · next sum hsum =>
          rw [hsum, ← hbits] at hadd
          obtain ⟨hcurve', hstands'⟩ := hadd
          exact pointMulLoop_standsFor hp hg k i sum hcurve' hstands' hr
      · next hbit =>
        have hzero : bit k i = 0 := by
          have := bit_lt_two k i
          omega
        rw [hzero, zero_nsmul, add_zero] at hbits
        exact pointMulLoop_standsFor hp hg k i twice hcurve (hbits ▸ hstands) hr

/-- `point_mul`, where it succeeds, is the multiple in the curve's group. -/
theorem pointMul_standsFor {p r : Point} {g : secp256k1.Point} {k : Nat} (hp : onCurve p) (hg : StandsFor p g)
    (hr : pointMul p k = .ok r) : onCurve r ∧ StandsFor r (k • g) := by
  rw [pointMul] at hr
  split at hr
  · cases hr
  · next hk =>
    have htop : k / 2 ^ (bitlen k - 1) = 1 := by
      have hlt := lt_two_pow_bitlen k
      have hle := two_pow_le_of_bitlen hk
      rw [show bitlen k = bitlen k - 1 + 1 by simp [bitlen, hk], pow_succ] at hlt
      exact Nat.div_eq_of_lt_le (by omega) (by omega)
    exact pointMulLoop_standsFor hp hg k _ p hp (by rwa [htop, one_nsmul]) hr

end PrimeField

/-! ### What PADD and PMUL deliver -/

/-- A canonical point is delivered as it is. -/
theorem delivered_point {r : Point} (hr : onCurve r) (s : State) :
    (⟨(complete (.ofPoint (.ok r)) s).rx.toNat, (complete (.ofPoint (.ok r)) s).ry.toNat⟩ : Point) = r := by
  obtain ⟨hx, hy, -⟩ := hr
  have hlt := pField_lt
  simp only [ofPoint_ok, complete, deliverValue_rx, deliverValue_ry, BitVec.toNat_ofNat]
  rw [Nat.mod_eq_of_lt (by omega), Nat.mod_eq_of_lt (by omega)]

/-- Settles O45: `point_add` represents the sum, and PADD delivers its point or reports its failure. -/
theorem paddIsTheGroupLaw : Obligations.PaddIsTheGroupLaw := by
  intro _ s t hp hq hexec
  obtain ⟨-, -, g, hg⟩ := (onCurve_iff _).1 hp
  obtain ⟨-, -, h, hh⟩ := (onCurve_iff _).1 hq
  refine ⟨g, h, hg, hh, ?_⟩
  have hsum := pointAdd_represents hp hq hg hh
  rw [exec_next hexec, commandResult]
  cases hr : pointAdd s.pointP s.pointQ with
  | ok r =>
    rw [hr] at hsum
    obtain ⟨hcurve, hstands⟩ := hsum
    refine ⟨fun _ => ?_, fun herr => absurd rfl herr⟩
    rw [delivered_point hcurve]
    exact ⟨hcurve, hstands⟩
  | error kind =>
    rw [hr] at hsum
    obtain ⟨rfl, hzero⟩ := hsum
    exact ⟨fun herr => absurd herr (code_ne_zero .pointAtInfinityUndefined), fun _ => ⟨rfl, hzero⟩⟩

/-- Settles O46: `point_mul`, where it succeeds, is the multiple, and PMUL delivers its point. -/
theorem pmulIsTheScalarMultiple : Obligations.PmulIsTheScalarMultiple := by
  intro _ s t hp hexec herr
  obtain ⟨-, -, g, hg⟩ := (onCurve_iff _).1 hp
  refine ⟨g, hg, ?_⟩
  rw [exec_next hexec, commandResult] at herr ⊢
  cases hr : pointMul s.pointP s.k.toNat with
  | ok r =>
    obtain ⟨hcurve, hstands⟩ := pointMul_standsFor hp hg hr
    rwa [delivered_point hcurve]
  | error kind =>
    rw [hr] at herr
    exact absurd herr (code_ne_zero kind)

end Sys2Proof.Machine

/-!
# Proofs for `spec/10_state.md`

The registers after reset (R27), the frames of the commands (R14, R17), and the invariants of the status, the results
and the point buffer (R18, R21), which reset establishes and every step keeps.
-/

namespace Sys2Proof.Machine

/-! ### After reset (R27) -/

@[simp] theorem operand_resetStep (s : State) (r : OperandReg) : (resetStep s).operand r = 0 := by cases r <;> rfl

theorem statusWord_eq_zero {s : State} (hbusy : s.busy = false) (hdone : s.done = false) (herr : s.err = 0) :
    statusWord s = 0 := by
  rw [statusWord, hbusy, hdone, herr]
  rfl

theorem ctrlWord_eq_zero {s : State} (hie : s.ie = false) : ctrlWord s = 0 := by
  rw [ctrlWord, hie]
  rfl

/-- Settles O1: the state after reset is `resetStep`'s, whose fields are known one by one. -/
theorem resetLeavesEveryRegisterZero : Obligations.ResetLeavesEveryRegisterZero := by
  intro t ht
  replace ht : t = resetStep t := ht
  rw [ht]
  exact ⟨operand_resetStep t, rfl, rfl, fun _ _ => rfl, rfl, rfl, rfl, rfl, rfl, statusWord_eq_zero rfl rfl rfl, rfl,
    ctrlWord_eq_zero rfl, rfl⟩

/-! ### The frames of the commands (R14, R17, R117) -/

/-- Settles O26: no result but an encoded point writes the point buffer, and none writes an operand. -/
theorem commandsLeaveOperandsAndBuffer : Obligations.CommandsLeaveOperandsAndBuffer := by
  intro i s t hi hexec
  obtain rfl := exec_next hexec
  obtain ⟨hop, hcmd, hie, hagenda, hresp, -, -⟩ := complete_frame (commandResult s i) s
  obtain ⟨hbuf, hlen⟩ := complete_pbuf (commandResult_ne_buffer hi) s
  exact ⟨hop, hcmd, hie, hlen, fun n => by rw [hbuf], hagenda, hresp⟩

/-- Settles O27: an encoded point of at most 65 bytes is stored padded to the 68 bytes of the buffer. -/
theorem pencLeavesRegistersAndResults : Obligations.PencLeavesRegistersAndResults := by
  intro f s t hwf hexec
  obtain rfl := exec_next hexec
  obtain ⟨hop, hcmd, hie, hagenda, hresp, -, -⟩ := complete_frame (commandResult s (.penc f)) s
  refine ⟨hop, rfl, rfl, hcmd, hie, fun n hn => ?_, hagenda, hresp⟩
  have hlen := length_encodePoint_le s.px s.py f
  refine read_deliverBuffer hwf _ (by omega) ?_
  simp only [pbufAddr, pbufSize] at hn ⊢
  omega

/-! ### The invariants after reset (R18, R21, R27) -/

/-- With no command in flight, only the outcome and the point buffer are constrained. -/
theorem inv_of_idle {s : State} (hbusy : s.busy = false) (hx : s.err ≠ 0 → s.rx = 0) (hy : s.err ≠ 0 → s.ry = 0)
    (hcode : s.err.toNat ≤ 7) (hbuf : pbufOk s.pbuf) : Inv s :=
  have hidle : s.busy ≠ true := by simp [hbusy]
  ⟨fun h => absurd h hidle, fun h => absurd h hidle, fun h => absurd h hidle, hx, hy, hcode, hbuf⟩

theorem inv_of_idle_of_ok {s : State} (hbusy : s.busy = false) (herr : s.err = 0) (hbuf : pbufOk s.pbuf) : Inv s :=
  inv_of_idle hbusy (absurd herr) (absurd herr) (by simp [herr]) hbuf

/-- Settles O3: after reset the block is idle, ERR is 0 and nothing is listed. -/
theorem invariantHoldsAfterReset : Obligations.InvariantHoldsAfterReset :=
  inv_of_idle_of_ok rfl rfl pbufOk_reset

theorem inv_resetStep (s : State) : Inv (resetStep s) := inv_of_idle_of_ok rfl rfl pbufOk_reset

/-! ### The invariants are kept by every operation (R18, R21, R117) -/

/-- An update that leaves BUSY, ERR, `CMD` and the results, does not set DONE, and keeps the point buffer's form keeps
the invariants. -/
theorem inv_of_same_status {s t : State} (h : Inv s) (hbusy : t.busy = s.busy) (hdone : t.done = true → s.done = true)
    (herr : t.err = s.err) (hcmd : t.cmd = s.cmd) (hrx : t.rx = s.rx) (hry : t.ry = s.ry) (hbuf : pbufOk t.pbuf) :
    Inv t where
  busyDone hb := by
    have hs := h.busyDone (hbusy ▸ hb)
    simpa [hs] using hdone
  busyErr hb := herr.trans (h.busyErr (hbusy ▸ hb))
  busyLegal hb := hcmd ▸ h.busyLegal (hbusy ▸ hb)
  failedX he := hrx.trans (h.failedX (herr ▸ he))
  failedY he := hry.trans (h.failedY (herr ▸ he))
  errCode := herr ▸ h.errCode
  pbuf := hbuf

theorem inv_beginStep {s : State} (h : Inv s) (rest : List StepLabel) : Inv (beginStep rest s) :=
  inv_of_same_status h rfl id rfl rfl rfl rfl h.pbuf

theorem inv_answer {s : State} (h : Inv s) (answer : PortResp) : Inv { s with resp := some answer } :=
  inv_of_same_status h rfl id rfl rfl rfl rfl h.pbuf

theorem inv_setOperand {s : State} (h : Inv s) (r : OperandReg) (v : Reg) : Inv (s.setOperand r v) :=
  inv_of_same_status h (setOperand_busy s r v) (setOperand_done s r v ▸ id) (setOperand_err s r v)
    (setOperand_cmd s r v) (setOperand_rx s r v) (setOperand_ry s r v) (setOperand_pbuf s r v ▸ h.pbuf)

/-- A completion ends the command, and where it fails the results are 0. -/
theorem inv_complete {r : CmdResult} {s : State} (hbuf : pbufOk (complete r s).pbuf) : Inv (complete r s) := by
  obtain ⟨-, -, -, -, -, hbusy, -⟩ := complete_frame r s
  obtain ⟨herr, -⟩ | ⟨kind, -, herr, hrx, hry⟩ := complete_err r s
  · exact inv_of_idle_of_ok hbusy herr hbuf
  · exact inv_of_idle hbusy (fun _ => hrx) (fun _ => hry) (herr ▸ code_le kind) hbuf

/-- The completion of a command keeps the form of the point buffer: PENC delivers at most 65 bytes, and no other
command writes it. -/
theorem pbufOk_complete_commandResult {s : State} (h : pbufOk s.pbuf) (i : Instr) :
    pbufOk (complete (commandResult s i) s).pbuf := by
  by_cases hi : ∃ f, i = .penc f
  · obtain ⟨f, rfl⟩ := hi
    exact pbufOk_deliverBuffer h _ (length_encodePoint_le s.px s.py f)
  · obtain ⟨hbuf, -⟩ := complete_pbuf (commandResult_ne_buffer fun f hf => hi ⟨f, hf⟩) s
    rwa [hbuf]

/-- The engine's turn keeps the invariants. -/
theorem inv_completionStep {s t : State} (h : Inv s) (hstep : completionStep s = .next t) : Inv t := by
  obtain ⟨-, rfl⟩ | ⟨-, i, -, rfl⟩ := completionStep_next hstep
  · exact h
  · exact inv_complete (pbufOk_complete_commandResult h.pbuf i)

/-- Issue starts a legal command with DONE and ERR 0, and reports an illegal word as a failed completion (R44, R57). -/
theorem inv_issue {s : State} (h : Inv s) (data : Word) : Inv (issue data s) := by
  obtain ⟨i, hi, heq⟩ | ⟨-, heq⟩ := issue_cases data s
  · rw [heq]
    exact {
      busyDone := fun _ => rfl
      busyErr := fun _ => rfl
      busyLegal := fun _ => ⟨i, hi⟩
      failedX := fun he => absurd rfl he
      failedY := fun he => absurd rfl he
      errCode := Nat.zero_le 7
      pbuf := h.pbuf }
  · rw [heq]
    exact inv_complete (r := .fail .illegalCommand) h.pbuf

/-- A performed write keeps the invariants, whatever its target. -/
theorem inv_writeTarget {s s' : State} {data : Word} {target : Target} (h : Inv s) (hrange : target.inRange = true)
    (hwrite : writeTarget s data target = .ok s') : Inv s' := by
  obtain ⟨-, -, rfl⟩ | ⟨-, rfl⟩ | ⟨-, rfl⟩ | ⟨-, -, rfl⟩ | ⟨r, j, -, -, rfl⟩ | ⟨j, rfl, -, rfl⟩ :=
    writeTarget_cases hwrite
  · exact inv_issue h data
  · split
    · exact inv_of_same_status h rfl (fun hd => by simp at hd) rfl rfl rfl rfl h.pbuf
    · exact h
  · exact inv_of_same_status h rfl id rfl rfl rfl rfl h.pbuf
  · exact inv_of_same_status h rfl id rfl rfl rfl rfl h.pbuf
  · exact inv_setOperand h r _
  · have hj : j < 17 := of_decide_eq_true hrange
    exact inv_of_same_status h rfl id rfl rfl rfl rfl (pbufOk_setPbufWord h.pbuf hj data)

/-- A port write, performed or refused, keeps the invariants. -/
theorem inv_regWrite {s : State} (h : Inv s) (addr : Addr) (data : Word) : Inv (regWrite addr data s) := by
  obtain heq | ⟨target, s', haddr, hwrite, heq⟩ := regWrite_cases addr data s
  · rw [heq]
    exact inv_answer h _
  · rw [heq]
    exact inv_answer (inv_writeTarget h (inRange_of_decodeAddr haddr) hwrite) _

/-- Settles O4, by the four kinds of step of R141. -/
theorem stepKeepsInvariant : Obligations.StepKeepsInvariant := by
  intro s t hinv hstep
  obtain ⟨rest, -, hcases⟩ := step_next hstep
  have hbegin := inv_beginStep hinv rest
  obtain ⟨addr, answer, -, rfl⟩ | ⟨addr, data, -, rfl⟩ | ⟨-, rfl⟩ | hcompletion := hcases
  · exact inv_answer hbegin answer
  · exact inv_regWrite hbegin addr data
  · exact inv_resetStep _
  · exact inv_completionStep hbegin hcompletion

end Sys2Proof.Machine

/-!
# Proofs for `spec/20_memory.md`

The address map (R37, R40, R41), the words and bytes the register space shows (R38, R39), what a read answers (R43),
which writes are performed and what they change (R42, R44, R45), a register written word by word (R47), and the
completion that goes before an access of the same cycle (R48).
-/

namespace Sys2Proof.Machine

/-! ### The address map, from the address (R37, R40, R41) -/

/-- An address that names a target is a reachable one, and whether the target is a result word, `STATUS` or `CTRL` can
be read off the address. -/
theorem decodeAddr_ok_range {addr : Addr} {target : Target} (h : decodeAddr addr = .ok target) :
    ¬ unreachableAddr addr.toNat ∧
    ((∃ r j, target = .result r j) ↔ 0x180 ≤ addr.toNat ∧ addr.toNat < 0x1C0) ∧
    (target = .status → addr = 0x004) ∧ (target = .ctrl → addr = 0x008) := by
  simp only [← BitVec.toNat_inj, unreachableAddr]
  simp only [decodeAddr] at h
  repeat' split at h
  all_goals cases h
  all_goals simp
  all_goals omega

theorem unreachable_of_decodeAddr {addr : Addr} {e : PortRefusal} (h : decodeAddr addr = .error e) :
    unreachableAddr addr.toNat := by
  unfold unreachableAddr
  simp only [decodeAddr] at h
  repeat' split at h
  all_goals cases h
  all_goals omega

theorem exists_decodeAddr_error {addr : Addr} (h : unreachableAddr addr.toNat) : ∃ e, decodeAddr addr = .error e := by
  cases hd : decodeAddr addr with
  | error e => exact ⟨e, rfl⟩
  | ok target => exact absurd h (decodeAddr_ok_range hd).1

theorem exists_decodeAddr_ok {addr : Addr} (h : ¬ unreachableAddr addr.toNat) :
    ∃ target, decodeAddr addr = .ok target := by
  cases hd : decodeAddr addr with
  | error e => exact absurd (unreachable_of_decodeAddr hd) h
  | ok target => exact ⟨target, rfl⟩

/-! ### The words the register space shows (R21, R22, R37 to R39) -/

theorem extractLsb'_one (w : Word) (i : Nat) : w.extractLsb' i 1 = BitVec.ofBool (w.getLsbD i) := by
  ext k hk
  obtain rfl : k = 0 := by omega
  simp

/-- The fields of `STATUS` make up the word (R21). -/
theorem statusWord_eq {s : State} {w : Word} (hbusy : w.getLsbD 0 = s.busy) (hdone : w.getLsbD 1 = s.done)
    (herr : w.extractLsb' 4 4 = s.err) (hlow : w.extractLsb' 2 2 = 0) (hhigh : w.extractLsb' 8 24 = 0) :
    statusWord s = w := by
  calc statusWord s
      = w.extractLsb' 8 24 ++ w.extractLsb' 4 4 ++ w.extractLsb' 2 2 ++ w.extractLsb' 1 1 ++ w.extractLsb' 0 1 := by
        rw [extractLsb'_one, extractLsb'_one, hbusy, hdone, herr, hlow, hhigh]
        rfl
    _ = w.extractLsb' 0 32 := by
        iterate 4 rw [BitVec.extractLsb'_append_extractLsb'_eq_extractLsb' (by rfl)]
    _ = w := BitVec.extractLsb'_eq_self

theorem ctrlWord_eq {s : State} {w : Word} (hie : w.getLsbD 0 = s.ie) (hhigh : w.extractLsb' 1 31 = 0) :
    ctrlWord s = w := by
  calc ctrlWord s
      = w.extractLsb' 1 31 ++ w.extractLsb' 0 1 := by rw [extractLsb'_one, hie, hhigh]; rfl
    _ = w.extractLsb' 0 32 := BitVec.extractLsb'_append_extractLsb'_eq_extractLsb' rfl
    _ = w := BitVec.extractLsb'_eq_self

theorem plenWord_eq {s : State} {w : Word} (hlen : w.extractLsb' 0 7 = s.plen) (hhigh : w.extractLsb' 7 25 = 0) :
    plenWord s = w := by
  calc plenWord s
      = w.extractLsb' 7 25 ++ w.extractLsb' 0 7 := by rw [hlen, hhigh]; rfl
    _ = w.extractLsb' 0 32 := BitVec.extractLsb'_append_extractLsb'_eq_extractLsb' rfl
    _ = w := BitVec.extractLsb'_eq_self

theorem pbufWord_eq {s : State} {w : Word} {j : Nat}
    (h : ∀ i, i < 4 → w.extractLsb' (24 - 8 * i) 8 = s.pbufByte (4 * j + i)) : s.pbufWord j = w := by
  have h0 : w.extractLsb' 24 8 = s.pbufByte (4 * j) := h 0 (by decide)
  have h1 : w.extractLsb' 16 8 = s.pbufByte (4 * j + 1) := h 1 (by decide)
  have h2 : w.extractLsb' 8 8 = s.pbufByte (4 * j + 2) := h 2 (by decide)
  have h3 : w.extractLsb' 0 8 = s.pbufByte (4 * j + 3) := h 3 (by decide)
  rw [State.pbufWord, ← h0, ← h1, ← h2, ← h3]
  exact append_wordBytes w

/-- The word the spec's map shows at an address is what the port reads there. -/
theorem ShowsWord.exists_target {s : State} {n : Nat} {w : Word} (h : ShowsWord s n w) :
    ∃ target, decodeAddr (BitVec.ofNat 10 n) = .ok target ∧ readTarget s target = w := by
  cases h with
  | cmd => exact ⟨.cmd, rfl, rfl⟩
  | status w hbusy hdone herr hlow hhigh => exact ⟨.status, rfl, statusWord_eq hbusy hdone herr hlow hhigh⟩
  | ctrl w hie hhigh => exact ⟨.ctrl, rfl, ctrlWord_eq hie hhigh⟩
  | plen w hlen hhigh => exact ⟨.plen, rfl, plenWord_eq hlen hhigh⟩
  | operand r j hj => exact ⟨.operand r j, decodeAddr_operand r hj, rfl⟩
  | result r j hj => exact ⟨.result r j, decodeAddr_result r hj, rfl⟩
  | pbuf j hj w hbytes => exact ⟨.pbuf j, decodeAddr_pbuf hj, pbufWord_eq hbytes⟩

/-! ### Reads (R43) -/

@[simp] theorem readTarget_beginStep (rest : List StepLabel) (s : State) (target : Target) :
    readTarget (beginStep rest s) target = readTarget s target := by
  cases target with
  | operand r j => simp [readTarget]
  | result r j => cases r <;> rfl
  | _ => rfl

theorem step_read {s : State} {rest : List StepLabel} {addr : Addr} {target : Target}
    (h : s.agenda = .regRead addr :: rest) (ht : decodeAddr addr = .ok target) :
    step s = .next { s with agenda := rest, resp := some (.read (readTarget s target) false) } := by
  rw [step_eq_of_cons h]
  simp only [performLabel, regRead, ht, readTarget_beginStep]
  rfl

theorem step_read_refused {s : State} {rest : List StepLabel} {addr : Addr} (h : s.agenda = .regRead addr :: rest)
    (hun : unreachableAddr addr.toNat) :
    step s = .next { s with agenda := rest, resp := some (.read 0 true) } := by
  obtain ⟨e, he⟩ := exists_decodeAddr_error hun
  rw [step_eq_of_cons h]
  simp only [performLabel, regRead, he]
  rfl

/-- Settles O11: each word of the map is the one its target reads as. -/
theorem readAnswersTheWordAndChangesNothing : Obligations.ReadAnswersTheWordAndChangesNothing := by
  intro s rest n w hw h
  obtain ⟨target, ht, rfl⟩ := hw.exists_target
  exact step_read h ht

/-! ### Which writes are performed (R42, R44, R45) -/

theorem exists_writeTarget_ok {s : State} {data : Word} {target : Target} (hidle : s.busy = false)
    (hres : ¬ ∃ r j, target = .result r j) : ∃ s', writeTarget s data target = .ok s' := by
  cases target with
  | result r j => exact absurd ⟨r, j, rfl⟩ hres
  | status => exact ⟨_, rfl⟩
  | ctrl => exact ⟨_, rfl⟩
  | _ => exact ⟨_, whenIdle_eq_ok.2 ⟨hidle, rfl⟩⟩

/-- While a command is in flight only `STATUS` and `CTRL` can be written. -/
theorem target_of_writeTarget_busy {s s' : State} {data : Word} {target : Target} (hbusy : s.busy = true)
    (h : writeTarget s data target = .ok s') : target = .status ∨ target = .ctrl := by
  have hidle : ¬ s.busy = false := by simp [hbusy]
  obtain ⟨-, hb, -⟩ | ⟨ht, -⟩ | ⟨ht, -⟩ | ⟨-, hb, -⟩ | ⟨r, j, -, hb, -⟩ | ⟨j, -, hb, -⟩ := writeTarget_cases h
  · exact absurd hb hidle
  · exact .inl ht
  · exact .inr ht
  · exact absurd hb hidle
  · exact absurd hb hidle
  · exact absurd hb hidle

theorem writeTarget_result_ne_ok (s s' : State) (data : Word) (r : ResultReg) (j : Nat) :
    writeTarget s data (.result r j) ≠ .ok s' := by
  simp [writeTarget]

theorem step_write {s s' : State} {rest : List StepLabel} {addr : Addr} {data : Word} {target : Target}
    (h : s.agenda = .regWrite addr data :: rest) (ht : decodeAddr addr = .ok target)
    (hw : writeTarget (beginStep rest s) data target = .ok s') :
    step s = .next { s' with resp := some (.write false) } := by
  rw [step_eq_of_cons h]
  simp only [performLabel, regWrite, ht, hw]

theorem step_write_refused {s : State} {rest : List StepLabel} {addr : Addr} {data : Word}
    (h : s.agenda = .regWrite addr data :: rest)
    (hw : ∀ target s', decodeAddr addr = .ok target → writeTarget (beginStep rest s) data target ≠ .ok s') :
    step s = .next { s with agenda := rest, resp := some (.write true) } := by
  rw [step_eq_of_cons h, performLabel]
  obtain heq | ⟨target, s', ht, hok, -⟩ := regWrite_cases addr data (beginStep rest s)
  · rw [heq]
    rfl
  · exact absurd hok (hw target s' ht)

/-- Settles O12: an unreachable address names no target, and the result registers' words are never written. -/
theorem refusedAccessesChangeNothing : Obligations.RefusedAccessesChangeNothing := by
  intro s rest addr data
  refine ⟨fun hun h => step_read_refused h hun, fun haddr h => ?_, fun hlo hhi hal h => ?_⟩
  · refine step_write_refused h fun target s' ht => ?_
    obtain ⟨hreach, hres, -, -⟩ := decodeAddr_ok_range ht
    obtain ⟨r, j, rfl⟩ := hres.2 (haddr.resolve_left hreach)
    exact writeTarget_result_ne_ok _ s' data r j
  · obtain ⟨target, ht⟩ := exists_decodeAddr_ok (addr := addr) (by unfold unreachableAddr; omega)
    exact ⟨_, step_read h ht⟩

/-! ### What a performed write changes (R39, R44) -/

/-- A state with a performed write's answer and these steps to come. -/
def State.written (s : State) (rest : List StepLabel) : State :=
  { s with agenda := rest, resp := some (.write false) }

@[simp] theorem operand_written (s : State) (rest : List StepLabel) (r : OperandReg) :
    (s.written rest).operand r = s.operand r := by
  cases r <;> rfl

theorem step_write_status {s : State} {rest : List StepLabel} {data : Word}
    (h : s.agenda = .regWrite 0x004 data :: rest) :
    step s = .next { s with
      done := if data.getLsbD 1 then false else s.done, agenda := rest, resp := some (.write false) } := by
  rw [step_write h (target := .status) rfl rfl]
  split <;> rfl

theorem step_write_ctrl {s : State} {rest : List StepLabel} {data : Word}
    (h : s.agenda = .regWrite 0x008 data :: rest) :
    step s = .next { s with ie := data.getLsbD 0, agenda := rest, resp := some (.write false) } :=
  step_write h (target := .ctrl) rfl rfl

/-- Issue of a legal word (R44). -/
theorem step_issue {s : State} {rest : List StepLabel} {w : Word} {i : Instr} (hidle : s.busy = false)
    (h : s.agenda = .regWrite 0x000 w :: rest) (hd : decode w = .ok i) :
    step s = .next { s with
      cmd := w, busy := true, done := false, err := 0, agenda := rest, resp := some (.write false) } := by
  rw [step_write h (target := .cmd) rfl (whenIdle_eq_ok.2 ⟨hidle, rfl⟩)]
  obtain ⟨-, -, heq⟩ | ⟨hne, -⟩ := issue_cases w (beginStep rest s)
  · rw [heq]
    rfl
  · exact absurd hd (hne i)

theorem step_write_operand {s : State} {rest : List StepLabel} {r : OperandReg} {j : Nat} {data : Word}
    (hidle : s.busy = false) (hj : j < 8)
    (h : s.agenda = .regWrite (BitVec.ofNat 10 (r.base + 4 * j)) data :: rest) :
    step s = .next ((s.setOperand r (setRegWord (s.operand r) j data)).written rest) := by
  rw [step_write h (decodeAddr_operand r hj) (whenIdle_eq_ok.2 ⟨hidle, rfl⟩)]
  cases r <;> rfl

theorem step_write_pbuf {s : State} {rest : List StepLabel} {j : Nat} {data : Word} (hidle : s.busy = false)
    (hj : j < 17) (h : s.agenda = .regWrite (BitVec.ofNat 10 (0x1C0 + 4 * j)) data :: rest) :
    step s = .next ((s.setPbufWord j data).written rest) :=
  step_write h (decodeAddr_pbuf hj) (whenIdle_eq_ok.2 ⟨hidle, rfl⟩)

/-- Settles O13: in flight, only the targets of the addresses 0x004 and 0x008 are written. -/
theorem busyWritesAreRefused : Obligations.BusyWritesAreRefused := by
  intro s rest addr data hbusy h
  refine ⟨fun haddr => ?_, ?_, ?_, fun n w hw => ?_⟩
  · have hne : addr ≠ 0x004 ∧ addr ≠ 0x008 := by
      constructor <;> (rintro rfl; revert haddr; decide)
    refine step_write_refused h fun target s' ht hok => ?_
    obtain ⟨-, -, hstatus, hctrl⟩ := decodeAddr_ok_range ht
    obtain rfl | rfl := target_of_writeTarget_busy (s := beginStep rest s) hbusy hok
    · exact hne.1 (hstatus rfl)
    · exact hne.2 (hctrl rfl)
  · rintro rfl
    exact step_write_status h
  · rintro rfl
    exact step_write_ctrl h
  · obtain ⟨target, ht, rfl⟩ := hw.exists_target
    exact step_read rfl ht

/-- Settles O16: what the three targets store, with the two ways to say that bit 1 clears DONE. -/
theorem writesToPlenCtrlStatus : Obligations.WritesToPlenCtrlStatus := by
  intro s rest data
  refine ⟨fun hidle h => ?_, step_write_ctrl, fun h => ?_⟩
  · rw [BitVec.setWidth_eq_extractLsb' (by decide)]
    exact step_write h (target := .plen) rfl (whenIdle_eq_ok.2 ⟨hidle, rfl⟩)
  · rw [step_write_status h]
    cases data.getLsbD 1 <;> simp

theorem decode_encode (i : Instr) : decode (encode i) = .ok i := by
  cases i with
  | modinv m => cases m <;> rfl
  | modexp m => cases m <;> rfl
  | penc f => cases f <;> rfl
  | _ => rfl

/-- Settles O18: the word of a command is legal, and its issue reads neither DONE nor ERR. -/
theorem issueOfALegalWord : Obligations.IssueOfALegalWord :=
  fun _ _ i hidle h => step_issue hidle h (decode_encode i)

/-- Settles O14: one word of one register is replaced. -/
theorem idleOperandWriteReplacesOneWord : Obligations.IdleOperandWriteReplacesOneWord := by
  intro s rest r j data hidle hj h
  refine ⟨_, step_write_operand hidle hj h, ?_, fun j' hj' hne => ?_, fun r' hne => ?_, ?_⟩
  · rw [operand_written, operand_setOperand, if_pos rfl, regWord_setRegWord _ _ hj hj, if_pos rfl]
  · rw [operand_written, operand_setOperand, if_pos rfl, regWord_setRegWord _ _ hj hj', if_neg hne]
  · rw [operand_written, operand_setOperand, if_neg hne]
  · cases r <;> rfl

theorem getElem?_wordBytes (w : Word) {i : Nat} (hi : i < 4) :
    (wordBytes w)[i]? = some (w.extractLsb' (24 - 8 * i) 8) := by
  obtain rfl | rfl | rfl | rfl : i = 0 ∨ i = 1 ∨ i = 2 ∨ i = 3 := by omega
  all_goals rfl

/-- The bytes a write to word `j` of the point buffer stores: of word 16 the first alone (R39). -/
def storedBytes (j : Nat) (data : Word) : List Byte := if j = 16 then [data.extractLsb' 24 8] else wordBytes data

theorem setPbufWord_pbuf (s : State) (j : Nat) (data : Word) :
    (s.setPbufWord j data).pbuf = s.pbuf.writeBytes (pbufAddr (4 * j)) (storedBytes j data) := rfl

theorem length_storedBytes {j : Nat} (hj : j ≤ 16) (data : Word) :
    (storedBytes j data).length = min 4 (65 - 4 * j) := by
  unfold storedBytes
  split
  · next h => rw [h]; rfl
  · simp only [wordBytes, List.length_cons, List.length_nil]
    omega

theorem getD_storedBytes {i j : Nat} (hi : i < 4) (hle : 4 * j + i ≤ 64) (data : Word) :
    (storedBytes j data).getD i 0 = data.extractLsb' (24 - 8 * i) 8 := by
  unfold storedBytes
  split
  · obtain rfl : i = 0 := by omega
    rfl
  · rw [List.getD_eq_getElem?_getD, getElem?_wordBytes data hi, Option.getD_some]

/-- Settles O15: the bytes stored are those of the word at the buffer's addresses up to byte 64. -/
theorem idlePbufWriteReplacesItsBytes : Obligations.IdlePbufWriteReplacesItsBytes := by
  intro s rest j data hidle hwf hj h
  have hread := Memory.read_writeBytes hwf (pbufAddr (4 * j)) (storedBytes j data)
  simp only [← setPbufWord_pbuf, length_storedBytes hj] at hread
  refine ⟨_, step_write_pbuf hidle (by omega) h, fun i hi hle => ?_, fun n hn => ?_, rfl⟩
  · refine (hread (pbufAddr (4 * j + i))).trans ?_
    rw [if_pos (by simp only [pbufAddr]; omega),
      show pbufAddr (4 * j + i) - pbufAddr (4 * j) = i by simp only [pbufAddr]; omega, getD_storedBytes hi hle]
  · refine (hread n).trans (if_neg ?_)
    simp only [pbufAddr] at hn ⊢
    omega

/-! ### A register written word by word (R46, R47, R60) -/

/-- The register after the words of `v` with these numbers are written to it, in this order. -/
def writeWords (v : Reg) (js : List Nat) (x : Reg) : Reg := js.foldl (fun x j => setRegWord x j (regWord v j)) x

theorem regWord_writeWords (v : Reg) {js : List Nat} (hjs : ∀ j ∈ js, j < 8) (x : Reg) {i : Nat} (hi : i < 8) :
    regWord (writeWords v js x) i = if i ∈ js then regWord v i else regWord x i := by
  induction js generalizing x with
  | nil => simp [writeWords]
  | cons j js ih =>
    obtain ⟨hj, hjs⟩ := List.forall_mem_cons.1 hjs
    rw [writeWords, List.foldl_cons, ← writeWords, ih hjs, regWord_setRegWord _ _ hj hi]
    by_cases hmem : i ∈ js
    · rw [if_pos hmem, if_pos (List.mem_cons_of_mem j hmem)]
    · by_cases heq : i = j
      · simp [heq]
      · simp [hmem, heq]

theorem writeWords_range (v x : Reg) : writeWords v (List.range 8) x = v :=
  eq_of_regWord_eq fun i hi => by
    rw [regWord_writeWords v (fun j hj => List.mem_range.1 hj) x hi, if_pos (List.mem_range.2 hi)]

theorem setOperand_operand (s : State) (r : OperandReg) : s.setOperand r (s.operand r) = s := by
  cases r <;> rfl

theorem setOperand_setOperand (s : State) (r : OperandReg) (v w : Reg) :
    (s.setOperand r v).setOperand r w = s.setOperand r w := by
  cases r <;> rfl

/-- No step reads the answer of the step before it. -/
theorem step_written (s : State) : step (s.written s.agenda) = step s := rfl

theorem step_written_wr {s : State} {rest : List StepLabel} {r : OperandReg} {j : Nat} {data : Word}
    (hidle : s.busy = false) (hj : j < 8) :
    step (s.written (wr (r.base + 4 * j) data ++ rest)) =
      .next ((s.setOperand r (setRegWord (s.operand r) j data)).written rest) := by
  rw [step_write_operand (s := s.written (wr (r.base + 4 * j) data ++ rest)) hidle hj rfl]
  cases r <;> rfl

theorem runSteps_succ {k : Nat} {s t : State} (h : step s = .next t) : runSteps (k + 1) s = runSteps k t := by
  rw [runSteps, h]

/-- The word writes of a list of words, one step each. -/
theorem runSteps_wrWords (r : OperandReg) (v : Reg) (rest : List StepLabel) {js : List Nat} (hjs : ∀ j ∈ js, j < 8)
    {s : State} (hidle : s.busy = false) :
    runSteps js.length (s.written (js.flatMap (fun j => wr (r.base + 4 * j) (regWord v j)) ++ rest)) =
      .next ((s.setOperand r (writeWords v js (s.operand r))).written rest) := by
  induction js generalizing s with
  | nil => rw [writeWords, List.foldl_nil, setOperand_operand]; rfl
  | cons j js ih =>
    obtain ⟨hj, hjs⟩ := List.forall_mem_cons.1 hjs
    rw [List.length_cons, List.flatMap_cons, List.append_assoc, runSteps_succ (step_written_wr hidle hj),
      ih hjs (by rwa [setOperand_busy]), setOperand_setOperand, operand_setOperand, if_pos rfl]
    rfl

theorem runSteps_wr256 {s : State} {rest : List StepLabel} {r : OperandReg} {v : Reg} (hidle : s.busy = false)
    (h : s.agenda = wr256 r v ++ rest) : runSteps 8 s = .next ((s.setOperand r v).written rest) := by
  have hrun := runSteps_wrWords r v rest (js := List.range 8) (fun j hj => List.mem_range.1 hj) hidle
  rw [writeWords_range] at hrun
  calc runSteps 8 s = runSteps 8 (s.written s.agenda) := by rw [runSteps, ← step_written]; rfl
    _ = .next ((s.setOperand r v).written rest) := by rw [h]; exact hrun

/-- Settles O20: each write replaces its word, so that the register holds the value, and a read takes one word of it. -/
theorem eightWordWritesSetTheRegister : Obligations.EightWordWritesSetTheRegister := by
  intro s rest r v hidle h
  have hrun := runSteps_wr256 hidle h
  have hval : (s.setOperand r v).operand r = v := by rw [operand_setOperand, if_pos rfl]
  refine ⟨hrun, hval, fun j hj rest' hrest => ?_⟩
  subst hrest
  have hread := step_read (s := (s.setOperand r v).written (rd (r.base + 4 * j) ++ rest')) rfl
    (decodeAddr_operand r hj)
  simp only [readTarget, operand_written, hval] at hread
  rw [runSteps_add 1 hrun, runSteps_succ hread]
  rfl

/-! ### The bytes of the register space (R38, R39, R109) -/

theorem spaceByte_of_decodeAddr {s : State} {n : Nat} {target : Target}
    (h : decodeAddr (BitVec.ofNat 10 (n / 4 * 4)) = .ok target) :
    s.spaceByte n = (wordBytes (readTarget s target))[n % 4]? := by
  simp only [State.spaceByte, h]

theorem getElem?_wordBytes_pbufWord (s : State) (j : Nat) {i : Nat} (hi : i < 4) :
    (wordBytes (s.pbufWord j))[i]? = some (s.pbufByte (4 * j + i)) := by
  rw [State.pbufWord, wordBytes_append]
  obtain rfl | rfl | rfl | rfl : i = 0 ∨ i = 1 ∨ i = 2 ∨ i = 3 := by omega
  all_goals rfl

theorem getElem?_be32 (v : Reg) {i : Nat} (hi : i < 32) : (be32 v)[i]? = some (v.extractLsb' (248 - 8 * i) 8) := by
  simp [be32, hi]

/-- A byte of a word of a register is a byte of the register. -/
theorem extractLsb'_regWord (v : Reg) {i : Nat} (hi : i < 32) :
    (regWord v (i / 4)).extractLsb' (24 - 8 * (i % 4)) 8 = v.extractLsb' (248 - 8 * i) 8 := by
  ext k hk
  simp only [← BitVec.getLsbD_eq_getElem, BitVec.getLsbD_extractLsb', getLsbD_regWord]
  rw [show 224 - 32 * (i / 4) + (24 - 8 * (i % 4) + k) = 248 - 8 * i + k by omega,
    decide_eq_true (show 24 - 8 * (i % 4) + k < 32 by omega), Bool.true_and]

/-- The bytes at an aligned address where the words of a register stand. -/
theorem spaceByte_reg {s : State} {base : Nat} {v : Reg} {target : Nat → Target} (hbase : base % 4 = 0)
    (haddr : ∀ j, j < 8 → decodeAddr (BitVec.ofNat 10 (base + 4 * j)) = .ok (target j))
    (hword : ∀ j, readTarget s (target j) = regWord v j) {i : Nat} (hi : i < 32) :
    s.spaceByte (base + i) = (be32 v)[i]? := by
  have hdec : decodeAddr (BitVec.ofNat 10 ((base + i) / 4 * 4)) = .ok (target (i / 4)) := by
    rw [show (base + i) / 4 * 4 = base + 4 * (i / 4) by omega]
    exact haddr _ (by omega)
  rw [spaceByte_of_decodeAddr hdec, hword, show (base + i) % 4 = i % 4 by omega, getElem?_wordBytes _ (by omega),
    extractLsb'_regWord v hi, getElem?_be32 v hi]

theorem spaceByte_operand (s : State) (r : OperandReg) {i : Nat} (hi : i < 32) :
    s.spaceByte (r.base + i) = (be32 (s.operand r))[i]? :=
  spaceByte_reg (by cases r <;> rfl) (fun _ => decodeAddr_operand r) (fun _ => rfl) hi

theorem spaceByte_result (s : State) (r : ResultReg) {i : Nat} (hi : i < 32) :
    s.spaceByte (r.base + i) = (be32 (s.result r))[i]? :=
  spaceByte_reg (by cases r <;> rfl) (fun _ => decodeAddr_result r) (fun _ => rfl) hi

theorem spaceByte_pbuf (s : State) {i : Nat} (hi : i < 68) : s.spaceByte (0x1C0 + i) = some (s.pbufByte i) := by
  have hdec : decodeAddr (BitVec.ofNat 10 ((0x1C0 + i) / 4 * 4)) = .ok (.pbuf (i / 4)) := by
    rw [show (0x1C0 + i) / 4 * 4 = 0x1C0 + 4 * (i / 4) by omega]
    exact decodeAddr_pbuf (by omega)
  rw [spaceByte_of_decodeAddr hdec, show (0x1C0 + i) % 4 = i % 4 by omega]
  exact (getElem?_wordBytes_pbufWord s (i / 4) (by omega)).trans (by rw [Nat.div_add_mod])

/-- Two registers side by side read as one string. -/
theorem spaceByte_pair {s : State} {base : Nat} {v w : Reg} (hv : ∀ i, i < 32 → s.spaceByte (base + i) = (be32 v)[i]?)
    (hw : ∀ i, i < 32 → s.spaceByte (base + 32 + i) = (be32 w)[i]?) {i : Nat} (hi : i < 64) :
    s.spaceByte (base + i) = (be32 v ++ be32 w)[i]? := by
  rcases Nat.lt_or_ge i 32 with hlt | hge
  · rw [List.getElem?_append_left (by rwa [length_be32]), hv i hlt]
  · rw [List.getElem?_append_right (by rwa [length_be32]), length_be32, ← hw (i - 32) (by omega),
      show base + 32 + (i - 32) = base + i by omega]

/-- Settles O21: an aligned word's bytes are the register's, and the registers of a pair are neighbours. -/
theorem registerSpaceIsBigEndian : Obligations.RegisterSpaceIsBigEndian := by
  intro s
  refine ⟨fun r _ => spaceByte_operand s r, fun r _ => spaceByte_result s r, fun _ => spaceByte_pbuf s, fun i hi => ?_⟩
  exact ⟨spaceByte_pair (fun _ => spaceByte_operand s .px) (fun _ => spaceByte_operand s .py) hi,
    spaceByte_pair (fun _ => spaceByte_operand s .qx) (fun _ => spaceByte_operand s .qy) hi,
    spaceByte_pair (fun _ => spaceByte_operand s .sr) (fun _ => spaceByte_operand s .ss) hi,
    spaceByte_pair (fun _ => spaceByte_result s .rx) (fun _ => spaceByte_result s .ry) hi⟩

/-! ### A completion and an access in the same cycle (R48) -/

/-- A command computes nothing from the steps to come or the last answer. -/
theorem exec_beginStep {i : Instr} {s u : State} (h : exec i s = .next u) (rest : List StepLabel) :
    exec i (beginStep rest s) = .next (beginStep rest u) := by
  rw [exec_next h, exec_eq, show commandResult (beginStep rest s) i = commandResult s i by cases i <;> rfl]
  cases commandResult s i <;> rfl

theorem busy_of_exec {i : Instr} {s u : State} (h : exec i s = .next u) : u.busy = false := by
  obtain ⟨-, -, -, -, -, hidle, -⟩ := complete_frame (commandResult s i) s
  rwa [exec_next h]

/-- The access a cycle's inputs ask for (R36). -/
def Pins.access (p : Pins) : StepLabel := if p.we then .regWrite p.addr p.wdata else .regRead p.addr

theorem cycleLabels_access {p : Pins} (hrst : p.rst = false) (hreq : p.req = true) :
    cycleLabels p true = [.complete, p.access] := by
  simp [cycleLabels, hrst, hreq, Pins.access]

/-- A port access always has a next state. -/
theorem step_access {s : State} {p : Pins} (h : s.agenda = [p.access]) : ∃ t, step s = .next t := by
  rw [step_eq_of_cons h, Pins.access]
  split <;> exact ⟨_, rfl⟩

theorem pinsOut_read {p : Pins} {s : State} {data : Word} {err : Bool} (hrst : p.rst = false) (hreq : p.req = true)
    (h : s.resp = some (.read data err)) : (pinsOut p s).rdata = data ∧ (pinsOut p s).err = err := by
  simp [pinsOut, hrst, hreq, h]

theorem pinsOut_write {p : Pins} {s : State} {err : Bool} (hrst : p.rst = false) (hreq : p.req = true)
    (h : s.resp = some (.write err)) : (pinsOut p s).err = err := by
  simp [pinsOut, hrst, hreq, h]

/-- Settles O32: the first step of the cycle is the completion, and the second is the access of the completed state. -/
theorem completionGoesBeforeTheAccess : Obligations.CompletionGoesBeforeTheAccess := by
  intro s p i hrst hreq hbusy hd hag
  obtain ⟨u, hu⟩ : ∃ u, exec i s = .next u := ⟨_, exec_eq i s⟩
  have hidle := busy_of_exec hu
  have hfirst : step s = .next (beginStep [p.access] u) := by
    rw [step_eq_of_cons (hag.trans (cycleLabels_access hrst hreq)), performLabel]
    exact (completionStep_busy (s := beginStep [p.access] s) hbusy hd).trans (exec_beginStep hu _)
  obtain ⟨t, ht⟩ := step_access (s := beginStep [p.access] u) rfl
  have hrun : runSteps 2 s = .next t := by rw [runSteps_succ hfirst, runSteps_succ ht]; rfl
  refine ⟨t, u, hu, hidle, hrun, ht, fun hwe n w haddr hw => ?_, fun hwe hal hrange => ?_,
    fun hwe haddr j hj => ?_⟩
  · obtain ⟨target, hdec, rfl⟩ := hw.exists_target
    have hread : (beginStep [p.access] u).agenda = [.regRead p.addr] := by simp [Pins.access, hwe]
    have hstep := ht.symm.trans (step_read hread (haddr ▸ hdec))
    rw [readTarget_beginStep] at hstep
    cases hstep
    exact and_assoc.1 ⟨pinsOut_read hrst hreq rfl, rfl⟩
  · have hwrite : (beginStep [p.access] u).agenda = [.regWrite p.addr p.wdata] := by simp [Pins.access, hwe]
    obtain ⟨target, hdec⟩ := exists_decodeAddr_ok (addr := p.addr) (by unfold unreachableAddr; omega)
    obtain ⟨-, hres, -, -⟩ := decodeAddr_ok_range hdec
    obtain ⟨s', hok⟩ := exists_writeTarget_ok (s := beginStep [] (beginStep [p.access] u)) (data := p.wdata) hidle
      (target := target) (by rw [hres]; omega)
    cases ht.symm.trans (step_write hwrite hdec hok)
    exact pinsOut_write hrst hreq rfl
  · have hwrite : (beginStep [p.access] u).agenda = [.regWrite 0x000 p.wdata] := by simp [Pins.access, hwe, haddr]
    cases ht.symm.trans (step_issue hidle hwrite hj)
    rfl

end Sys2Proof.Machine

/-!
# Proofs for `spec/30_encoding.md`

A word decodes exactly when its fields are well formed (R56, R57, R61), and then to the command whose word it is (R55);
a word that does not decode is reported in the step that writes it to `CMD` (R57).
-/

namespace Sys2Proof.Machine

/-! ### The words of the commands (R55) -/

theorem encodedFields (i : Instr) : Laws.EncodedFields.Statement i := by
  cases i with
  | modinv m => exact Laws.EncodedFields.modinv m
  | modexp m => exact Laws.EncodedFields.modexp m
  | pdec => exact Laws.EncodedFields.pdec
  | penc f => exact Laws.EncodedFields.penc f
  | pdbl => exact Laws.EncodedFields.pdbl
  | padd => exact Laws.EncodedFields.padd
  | pmul => exact Laws.EncodedFields.pmul
  | sign => exact Laws.EncodedFields.sign
  | verify => exact Laws.EncodedFields.verify

theorem mem_legalWords_encode (i : Instr) : (encode i, i) ∈ legalWords := by
  cases i with
  | modinv m => cases m <;> decide
  | modexp m => cases m <;> decide
  | penc f => cases f <;> decide
  | _ => decide

/-- The list of the twelve words is the graph of `encode`. -/
theorem mem_legalWords_iff {w : Word} {i : Instr} : (w, i) ∈ legalWords ↔ w = encode i := by
  have hrows : ∀ p ∈ legalWords, p.1 = encode p.2 := by decide
  constructor
  · exact hrows (w, i)
  · rintro rfl
    exact mem_legalWords_encode i

/-! ### Which words decode (R56, R57, R61) -/

theorem commandFields_wf_iff (f : CommandFields) :
    f.wf = true ↔ f.zero = 0 ∧ (1 ≤ f.opcode.toNat ∧ f.opcode.toNat ≤ 9) ∧
      (f.msel = true → f.opcode = 1 ∨ f.opcode = 2) ∧ (f.comp = true → f.opcode = 4) := by
  simp [CommandFields.wf, CommandFields.zeroOk, CommandFields.opcodeOk, CommandFields.mselOk, CommandFields.compOk,
    and_assoc, or_assoc, imp_iff_not_or]

/-- Everything decoding an opcode can be: the forms of R61 by the option bit the opcode's commands use, each with the
fields its commands' words have, or a rejection. -/
theorem decodeOpcode_cases (f : CommandFields) :
    (f.opcode ≠ 4 ∧ ∃ mk, decodeOpcode f = decodeWithMsel f mk ∧
      ∀ msel, fieldsOf (encode (mk (modSelOfBit msel))) = ⟨f.opcode, msel, false, 0⟩) ∨
    (f.opcode = 4 ∧ decodeOpcode f = decodeWithComp f .penc) ∨
    ((f.opcode ≠ 1 ∧ f.opcode ≠ 2 ∧ f.opcode ≠ 4) ∧ ∃ i, decodeOpcode f = decodePlain f i ∧
      fieldsOf (encode i) = ⟨f.opcode, false, false, 0⟩) ∨
    ((f.opcode.toNat = 0 ∨ 9 < f.opcode.toNat) ∧ decodeOpcode f = .error .unknownOpcode) := by
  unfold decodeOpcode
  split
  case h_1 hop | h_2 hop =>
    obtain ⟨-, hopcode⟩ := BitVec.toNat_eq_nat.1 hop
    rw [hopcode]
    exact .inl ⟨by decide, _, rfl, fun msel => by cases msel <;> rfl⟩
  case h_4 hop => exact .inr (.inl ⟨BitVec.eq_of_toNat_eq hop, rfl⟩)
  case h_3 hop | h_5 hop | h_6 hop | h_7 hop | h_8 hop | h_9 hop =>
    obtain ⟨-, hopcode⟩ := BitVec.toNat_eq_nat.1 hop
    rw [hopcode]
    exact .inr (.inr (.inl ⟨by decide, _, rfl, rfl⟩))
  case h_10 => exact .inr (.inr (.inr ⟨by grind, rfl⟩))

/-- Fields that decode are those of the command's word. -/
theorem eq_fieldsOf_encode_of_decodeFields {f : CommandFields} {i : Instr} (h : decodeFields f = .ok i) :
    f = fieldsOf (encode i) := by
  obtain ⟨opcode, msel, comp, zero⟩ := f
  obtain ⟨rfl, hop⟩ := decodeFields_eq_ok.1 h
  obtain ⟨-, mk, heq, henc⟩ | ⟨rfl, heq⟩ | ⟨-, j, heq, henc⟩ | ⟨-, heq⟩ := decodeOpcode_cases ⟨opcode, msel, comp, 0⟩
  · obtain ⟨rfl, rfl⟩ := decodeWithMsel_eq_ok.1 (heq.symm.trans hop)
    exact (henc msel).symm
  · obtain ⟨rfl, rfl⟩ := decodeWithComp_eq_ok.1 (heq.symm.trans hop)
    cases comp <;> rfl
  · obtain ⟨rfl, rfl, rfl⟩ := decodePlain_eq_ok.1 (heq.symm.trans hop)
    exact henc.symm
  · cases heq.symm.trans hop

/-- The word of a command decodes to it, and no other word does. -/
theorem decode_eq_ok_iff {w : Word} {i : Instr} : decode w = .ok i ↔ w = encode i := by
  constructor
  · exact fun h => eq_of_fieldsOf_eq (eq_fieldsOf_encode_of_decodeFields h)
  · rintro rfl
    exact decode_encode i

/-- Settles O7: decoding and the list of the twelve words both are the graph of `encode`. -/
theorem legalWordsAreTheTwelve : Obligations.LegalWordsAreTheTwelve :=
  fun _ _ => decode_eq_ok_iff.trans mem_legalWords_iff.symm

/-- Well-formed fields pass the tests of whichever form their opcode decodes in. -/
theorem exists_decodeFields_of_wf {f : CommandFields} (h : f.wf = true) : ∃ i, decodeFields f = .ok i := by
  obtain ⟨hzero, hrange, hmsel, hcomp⟩ := (commandFields_wf_iff f).1 h
  suffices hop : ∃ i, decodeOpcode f = .ok i from hop.imp fun _ hi => decodeFields_eq_ok.2 ⟨hzero, hi⟩
  obtain ⟨hne, mk, heq, -⟩ | ⟨hfour, heq⟩ | ⟨⟨hne1, hne2, hne4⟩, i, heq, -⟩ | ⟨hout, -⟩ := decodeOpcode_cases f
  · have hoff : f.comp = false := Bool.eq_false_iff.2 (mt hcomp hne)
    exact ⟨_, heq.trans (decodeWithMsel_eq_ok.2 ⟨hoff, rfl⟩)⟩
  · have hoff : f.msel = false := Bool.eq_false_iff.2 (mt hmsel (by simp [hfour]))
    exact ⟨_, heq.trans (decodeWithComp_eq_ok.2 ⟨hoff, rfl⟩)⟩
  · have hmselOff : f.msel = false := Bool.eq_false_iff.2 (mt hmsel (not_or.2 ⟨hne1, hne2⟩))
    have hcompOff : f.comp = false := Bool.eq_false_iff.2 (mt hcomp hne4)
    exact ⟨i, heq.trans (decodePlain_eq_ok.2 ⟨hcompOff, hmselOff, rfl⟩)⟩
  · omega

/-- Settles O8: a word that decodes is a command's word, whose fields are well formed, and well-formed fields decode. -/
theorem decoderAgreesWithFieldChecks : Obligations.DecoderAgreesWithFieldChecks := by
  intro w
  refine ⟨?_, exists_decodeFields_of_wf⟩
  rintro ⟨i, hi⟩
  obtain rfl := decode_eq_ok_iff.1 hi
  exact (encodedFields i).1

/-! ### Decode and encode on bytes and table words (R38, R53) -/

theorem decodeBytes_wordBytes (w : Word) : decodeBytes (wordBytes w) = decode w := congrArg decode (append_wordBytes w)

/-- The table's numbering of a word is the word's own. -/
theorem decodeTableWord_toNat {w : Word} {i : Instr} (h : decode w = .ok i) : decodeTableWord 32 w.toNat = some i := by
  have hbytes : decodeBytes (wordBytes (BitVec.ofNat 32 w.toNat)) = .ok i := by
    rw [BitVec.ofNat_toNat, BitVec.setWidth_eq, decodeBytes_wordBytes, h]
  rw [decodeTableWord, if_pos ⟨le_rfl, w.isLt⟩, hbytes]

/-- Settles O9, from the round trip on words. -/
theorem decodeOfEncode : Obligations.DecodeOfEncode :=
  ⟨fun i => ⟨decode_encode i, decodeTableWord_toNat (decode_encode i)⟩, decodeBytes_wordBytes⟩

/-- Settles O10: six words are those of their commands, and each of the others fails the test it is rejected by. -/
theorem wordsOfTheTableDecode : Obligations.WordsOfTheTableDecode :=
  ⟨decode_encode (.modinv .order), decode_encode (.modexp .field), decode_encode .pdec,
    decode_encode (.penc .compressed), decode_encode .padd, decode_encode .verify, rfl, rfl, rfl, rfl, rfl⟩

/-! ### Illegal words (R57) -/

/-- A word is none of the twelve when its fields are not well formed. -/
theorem forall_not_mem_legalWords_iff (w : Word) : (∀ i, (w, i) ∉ legalWords) ↔ ¬ (fieldsOf w).wf = true := by
  simp only [← legalWordsAreTheTwelve w, ← decoderAgreesWithFieldChecks w, not_exists]

/-- R57's list of the illegal words: one of the four conditions on the fields fails. -/
theorem not_wf_fieldsOf_iff (w : Word) : ¬ (fieldsOf w).wf = true ↔
    w.extractLsb' 0 8 = 0 ∨ 0x0A ≤ (w.extractLsb' 0 8).toNat ∨ w.extractLsb' 10 22 ≠ 0 ∨
      (w.getLsbD 8 = true ∧ w.extractLsb' 0 8 ≠ 1 ∧ w.extractLsb' 0 8 ≠ 2) ∨
      (w.getLsbD 9 = true ∧ w.extractLsb' 0 8 ≠ 4) := by
  have hopcode : ¬ (1 ≤ (w.extractLsb' 0 8).toNat ∧ (w.extractLsb' 0 8).toNat ≤ 9) ↔
      w.extractLsb' 0 8 = 0 ∨ 0x0A ≤ (w.extractLsb' 0 8).toNat := by
    simp only [← BitVec.toNat_inj, BitVec.ofNat_eq_ofNat, BitVec.toNat_zero]
    omega
  rw [commandFields_wf_iff]
  simp only [fieldsOf]
  tauto

/-- Issue of an illegal word (R57). -/
theorem step_issue_illegal {s : State} {rest : List StepLabel} {w : Word} (hidle : s.busy = false)
    (h : s.agenda = .regWrite 0x000 w :: rest) (hd : ∀ i, decode w ≠ .ok i) :
    step s = .next { s with
      cmd := w, busy := false, done := true, err := 7, rx := 0, ry := 0, agenda := rest,
      resp := some (.write false) } := by
  rw [step_write h (target := .cmd) rfl (whenIdle_eq_ok.2 ⟨hidle, rfl⟩)]
  obtain ⟨i, hi, -⟩ | ⟨-, heq⟩ := issue_cases w (beginStep rest s)
  · exact absurd hi (hd i)
  · rw [heq]
    rfl

/-- Settles O19: the list of R57 says which words do not decode, and such a word is answered by issue while idle, and
refused like any other while a command is in flight. -/
theorem illegalWordIsReportedAtOnce : Obligations.IllegalWordIsReportedAtOnce := by
  refine ⟨fun w => (forall_not_mem_legalWords_iff w).trans (not_wf_fieldsOf_iff w), fun s rest w hw h => ⟨?_, ?_⟩⟩
  · intro hidle
    have hd : ∀ i, decode w ≠ .ok i := fun i hi => hw i ((legalWordsAreTheTwelve w i).1 hi)
    exact ⟨_, step_issue_illegal hidle h hd, rfl, Bool.and_true s.ie⟩
  · intro hbusy
    obtain ⟨hrefused, -⟩ := busyWritesAreRefused s rest 0x000 w hbusy h
    exact hrefused (.inl rfl)

end Sys2Proof.Machine

/-!
# Proofs for `spec/40_modular.md`

`inv` is the inverse in [0, m) and fails exactly when m divides its argument (R67), so MODINV fails on 0 and m alone
(R69); MODEXP delivers the exact power (R68, R70).
-/

namespace Sys2Proof.Machine

/-! ### The moduli are prime (R67) -/

theorem mselMod_prime (sel : ModSel) : Nat.Prime (mselMod sel) := by
  cases sel with
  | field => exact pField_prime
  | order => exact nOrder_prime

/-- Reducing the argument changes no gcd (R67). -/
theorem gcd_modulo (a : Int) {m : Nat} (hm : 0 < m) : Nat.gcd (modulo a m) m = Int.gcd a m := by
  rw [← Int.gcd_natCast_natCast, modulo_cast a hm, Int.gcd_emod]

/-- A modulus is prime, so the gcd is not 1 exactly when it divides the argument. -/
theorem gcd_mselMod_ne_one_iff (a : Int) (sel : ModSel) :
    Int.gcd a (mselMod sel) ≠ 1 ↔ (mselMod sel : Int) ∣ a := by
  rw [Int.natCast_dvd, Int.gcd_comm, Ne, not_iff_comm]
  exact ((mselMod_prime sel).coprime_iff_not_dvd).symm

/-- Twice a modulus is above every operand (R3), so it divides 0 and itself alone. -/
theorem mselMod_dvd_toNat_iff (a : Reg) (sel : ModSel) :
    mselMod sel ∣ a.toNat ↔ a.toNat = 0 ∨ a.toNat = mselMod sel := by
  have htwice : 2 ^ 256 < mselMod sel * 2 := by cases sel <;> decide
  constructor
  · rintro ⟨c, hc⟩
    have hc2 : c < 2 := Nat.lt_of_mul_lt_mul_left ((hc ▸ a.isLt).trans htwice)
    obtain rfl | rfl : c = 0 ∨ c = 1 := by omega
    · exact .inl hc
    · exact .inr (hc.trans (mul_one _))
  · rintro (h | h)
    · exact h ▸ dvd_zero _
    · exact h ▸ dvd_rfl

/-! ### `inv` (R67) -/

/-- Settles O35: the values and failures of `inv`, with its gcd that of the unreduced argument. -/
theorem invIsTheInverseInRange : Obligations.InvIsTheInverseInRange := by
  intro a sel
  refine ⟨fun x => inv_eq_ok_iff a (mselMod_gt_one sel) (mselMod_lt sel), fun kind => ?_,
    gcd_mselMod_ne_one_iff a sel⟩
  rw [inv_eq_error_iff, gcd_modulo a (mselMod_prime sel).pos]

/-- The inverse of the inverse is the argument, reduced. -/
theorem inv_of_inv_eq_ok {a : Int} {m x : Nat} (hm : 1 < m) (hm' : m < 2 ^ 256) (h : inv a m = .ok x) :
    inv x m = .ok (modulo a m) := by
  obtain ⟨-, hmul⟩ := (inv_eq_ok_iff a hm hm').1 h
  refine (inv_eq_ok_iff x hm hm').2 ⟨modulo_lt a (by omega), ?_⟩
  calc (x : Int) * (modulo a m : Nat) % m = x * (a % m) % m := by rw [modulo_cast a (by omega)]
    _ = x * a % m := (Int.mod_modEq a m).mul_left x
    _ = 1 := by rw [mul_comm, hmul]

/-- 0 is no inverse, so an inverse in [0, m) lies in [1, m). -/
theorem one_le_of_inv_eq_ok {a : Int} {m x : Nat} (hm : 1 < m) (hm' : m < 2 ^ 256) (h : inv a m = .ok x) : 1 ≤ x := by
  obtain ⟨-, hmul⟩ := (inv_eq_ok_iff a hm hm').1 h
  refine Nat.one_le_iff_ne_zero.2 ?_
  rintro rfl
  simp at hmul

/-! ### MODINV (R69) -/

theorem exec_modinv_of_inv_eq_ok {sel : ModSel} {s : State} {x : Nat} (h : inv s.a.toNat (mselMod sel) = .ok x) :
    exec (.modinv sel) s = .next (succeeds s x 0) := by
  rw [exec_eq, commandResult, h]
  rfl

theorem exec_modinv_of_inv_eq_error {sel : ModSel} {s : State} {kind : FailKind}
    (h : inv s.a.toNat (mselMod sel) = .error kind) :
    exec (.modinv sel) s = .next (failsWith s kind.code) := by
  rw [exec_eq, commandResult, h]
  rfl

/-- The gcd of R69 is not 1 exactly for the operands 0 and m. -/
theorem gcd_operand_ne_one_iff (a : Reg) (sel : ModSel) :
    Nat.gcd (modulo a.toNat (mselMod sel)) (mselMod sel) ≠ 1 ↔ a.toNat = 0 ∨ a.toNat = mselMod sel := by
  rw [gcd_modulo _ (mselMod_prime sel).pos, gcd_mselMod_ne_one_iff, Int.natCast_dvd_natCast, mselMod_dvd_toNat_iff]

/-- Settles O33: `inv` fails on the operands 0 and m alone, and else MODINV delivers its value, whose own inverse is the
operand reduced. -/
theorem modinvGivesTheInverse : Obligations.ModinvGivesTheInverse := by
  intro sel s
  have hm := mselMod_gt_one sel
  have hm' := mselMod_lt sel
  have hgcd := gcd_operand_ne_one_iff s.a sel
  refine ⟨by rwa [modulo_natCast] at hgcd, fun h => ?_, fun h0 hne => ?_⟩
  · exact exec_modinv_of_inv_eq_error ((inv_eq_error_iff _ _ _).2 ⟨rfl, hgcd.2 h⟩)
  · obtain ⟨x, hx⟩ := exists_inv_eq_ok s.a.toNat (mselMod sel) (not_not.1 (mt hgcd.1 (not_or.2 ⟨h0, hne⟩)))
    obtain ⟨hlt, hmul⟩ := (inv_eq_ok_iff _ hm hm').1 hx
    refine ⟨x, one_le_of_inv_eq_ok hm hm' hx, Nat.le_pred_of_lt hlt, by exact_mod_cast hmul,
      exec_modinv_of_inv_eq_ok hx, ?_⟩
    rintro s' rfl
    rw [← modulo_natCast]
    exact exec_modinv_of_inv_eq_ok (inv_of_inv_eq_ok hm hm' hx)

/-! ### MODEXP (R68, R70) -/

/-- Settles O34: MODEXP delivers `powmod` of the operands, the exact power reduced. -/
theorem modexpGivesThePower : Obligations.ModexpGivesThePower := by
  intro sel s
  rw [exec_eq, commandResult, powmod_natCast _ _ (mselMod_prime sel).pos]
  rfl

end Sys2Proof.Machine

/-!
# Proofs for `spec/41_point_codec.md`

The byte conversions are inverse bijections (R76); PDEC reads the coordinates out of the buffer, with the candidate
root of a compressed point (R77, R78, R80); PENC fills the buffer (R79, R81); and the round trip (R83), whose
compressed form turns on the candidate root being a square root wherever there is one.
-/

namespace Sys2Proof.Machine

open Sys2Proof.Config

/-! ### Byte strings as integers (R76) -/

/-- `from_be` is the sum of the bytes weighted by powers of 256. -/
theorem fromBe_eq_sum (bs : List Byte) :
    fromBe bs = ((List.range bs.length).map fun i => (bs.getD i 0).toNat * 256 ^ (bs.length - 1 - i)).sum := by
  induction bs using List.reverseRecOn with
  | nil => rfl
  | append_singleton bs b ih =>
    have hterm : ∀ i ∈ List.range bs.length,
        ((bs ++ [b]).getD i 0).toNat * 256 ^ (bs.length - i) =
          (bs.getD i 0).toNat * 256 ^ (bs.length - 1 - i) * 256 := fun i hi => by
      have hlt := List.mem_range.1 hi
      rw [List.getD_append _ _ _ _ hlt, show bs.length - i = bs.length - 1 - i + 1 by omega, pow_succ, mul_assoc]
    rw [fromBe_append_singleton, ih, List.length_append, List.length_singleton, Nat.add_sub_cancel, List.range_succ,
      List.map_append, List.sum_append, List.map_congr_left hterm, List.sum_map_mul_right]
    simp [List.getD_eq_getElem?_getD]

/-- Settles O22: the two round trips, and the weighted sum for 32 bytes. -/
theorem byteConversionsAreInverse : Obligations.ByteConversionsAreInverse := by
  refine ⟨fun v => ⟨length_be32 v, fun i hi => getElem?_be32 v hi, fromBe_be32 v⟩,
    fun c hc => ⟨?_, ?_, be32_fromBe hc⟩⟩
  · have hsum := fromBe_eq_sum c
    rwa [hc] at hsum
  · calc fromBe c < 256 ^ c.length := fromBe_lt c
      _ = 2 ^ 256 := by rw [hc]; norm_num

/-! ### The point buffer as a byte string (R75) -/

theorem getD_pbufBytes (s : State) (lo : Nat) {n i : Nat} (hi : i < n) :
    (s.pbufBytes lo n).getD i 0 = s.pbufByte (lo + i) := by
  simp [State.pbufBytes, List.getD_eq_getElem?_getD, hi]

/-- A part of a part of the buffer is a part of it. -/
theorem take_drop_pbufBytes (s : State) (lo : Nat) {m k n : Nat} (h : k + n ≤ m) :
    ((s.pbufBytes lo m).drop k).take n = s.pbufBytes (lo + k) n := by
  refine List.ext_getElem (by simp [State.pbufBytes]; omega) fun i hi hi' => ?_
  simp [State.pbufBytes, Nat.add_assoc]

theorem pbufBytes_eq_be32 {s : State} {lo : Nat} {v : Reg}
    (h : ∀ i, i < 32 → s.pbufByte (lo + i) = v.extractLsb' (248 - 8 * i) 8) : s.pbufBytes lo 32 = be32 v :=
  List.map_congr_left fun i hi => h i (List.mem_range.1 hi)

/-! ### The candidate root (R78) -/

/-- The candidate root of R78 as an exact power, reduced. -/
def candidateRoot (x : Nat) : Nat := (x ^ 3 + 7) ^ ((pField + 1) / 4) % pField

theorem powmod_eq_candidateRoot (x : Nat) :
    powmod (modulo (x * x * x + 7) pField) sqrtExponent pField = candidateRoot x := by
  have hcube : ((x : Int) * x * x + 7) = ((x ^ 3 + 7 : Nat) : Int) := by push_cast; ring
  rw [powmod_natCast _ _ pField_pos, hcube, modulo_natCast, ← Nat.pow_mod, candidateRoot, sqrtExponent]

/-- R78 read from the root that is kept: the candidate where its parity is the lead byte's, else its negative. -/
theorem decompressY_eq (x : Nat) (lead : Byte) :
    decompressY x lead =
      if candidateRoot x % 2 = lead.toNat % 2 then candidateRoot x else pField - candidateRoot x := by
  simp only [decompressY, powmod_eq_candidateRoot, ne_eq, ite_not]

/-- Where `x³ + 7` has a root `y` other than 0, the candidate is `y` or `−y`: it is `y · y^((p−1)/2)`, and the second
factor is 1 or −1. -/
theorem candidateRoot_eq_or {x y : Nat} (hy : 1 ≤ y) (hlt : y < pField)
    (hsq : y ^ 2 % pField = (x ^ 3 + 7) % pField) : candidateRoot x = y ∨ candidateRoot x = pField - y := by
  have : Fact (Nat.Prime pField) := ⟨pField_prime⟩
  have hroot : candidateRoot x < pField := Nat.mod_lt _ pField_pos
  have hy0 : (y : ZMod pField) ≠ 0 := fun h0 => by
    have := Nat.le_of_dvd hy ((ZMod.natCast_eq_zero_iff y pField).1 h0)
    omega
  have hcast : (candidateRoot x : ZMod pField) = y * (y : ZMod pField) ^ (pField / 2) := by
    have hsq' : ((x ^ 3 + 7 : Nat) : ZMod pField) = (y : ZMod pField) ^ 2 := by
      rw [← Nat.cast_pow]
      exact ((ZMod.natCast_eq_natCast_iff' _ _ _).2 hsq).symm
    rw [candidateRoot, ZMod.natCast_mod, Nat.cast_pow, hsq', ← pow_mul,
      show 2 * ((pField + 1) / 4) = pField / 2 + 1 by decide, pow_succ']
  rcases ZMod.pow_div_two_eq_neg_one_or_one pField hy0 with hone | hneg
  · rw [hone, mul_one] at hcast
    exact .inl ((cast_inj_of_lt hroot hlt).1 hcast)
  · refine .inr ((cast_inj_of_lt hroot (by omega)).1 ?_)
    rw [hcast, hneg, Nat.cast_sub hlt.le, ZMod.natCast_self]
    ring

/-- Decompression finds the root of the lead byte's parity. -/
theorem decompressY_of_root {x y : Nat} {lead : Byte} (hy : 1 ≤ y) (hlt : y < pField)
    (hsq : y ^ 2 % pField = (x ^ 3 + 7) % pField) (hlead : lead.toNat % 2 = y % 2) : decompressY x lead = y := by
  have hodd : pField % 2 = 1 := by decide
  rw [decompressY_eq, hlead]
  rcases candidateRoot_eq_or hy hlt hsq with hroot | hroot
  · rw [hroot, if_pos rfl]
  · rw [hroot, if_neg (by omega), Nat.sub_sub_self hlt.le]

/-! ### PDEC (R77, R80) -/

/-- `decode_point` on the buffer: its three cases, by the bytes of `PBUF`. -/
theorem decodePoint_pbufBytes (s : State) : decodePoint (s.pbufBytes 0 65) s.plen.toNat =
    if s.plen = 65 ∧ s.pbufByte 0 = 0x04 then .ok ⟨fromBe (s.pbufBytes 1 32), fromBe (s.pbufBytes 33 32)⟩
    else if s.plen = 33 ∧ (s.pbufByte 0 = 0x02 ∨ s.pbufByte 0 = 0x03) then
      .ok ⟨fromBe (s.pbufBytes 1 32), decompressY (fromBe (s.pbufBytes 1 32)) (s.pbufByte 0)⟩
    else .error .invalidPointEncoding := by
  have hlen : ∀ n : BitVec 7, s.plen.toNat = n.toNat ↔ s.plen = n := fun n => BitVec.toNat_inj
  simp only [decodePoint, getD_pbufBytes s 0 (show 0 < 65 by decide),
    take_drop_pbufBytes s 0 (show 1 + 32 ≤ 65 by decide), take_drop_pbufBytes s 0 (show 33 + 32 ≤ 65 by decide),
    Nat.zero_add, ← hlen]
  rfl

theorem exec_pdec_of_decodePoint {s : State} {p : Point} (h : decodePoint (s.pbufBytes 0 65) s.plen.toNat = .ok p) :
    exec .pdec s = .next (succeeds s p.x p.y) := by
  rw [exec_eq, commandResult, h]
  rfl

theorem exec_pdec_uncompressed {s : State} (h : s.plen = 65 ∧ s.pbufByte 0 = 0x04) :
    exec .pdec s = .next (succeeds s (fromBe (s.pbufBytes 1 32)) (fromBe (s.pbufBytes 33 32))) :=
  exec_pdec_of_decodePoint (by rw [decodePoint_pbufBytes, if_pos h])

theorem exec_pdec_compressed {s : State} (hlen : s.plen = 33) (hlead : s.pbufByte 0 = 0x02 ∨ s.pbufByte 0 = 0x03) :
    exec .pdec s = .next (succeeds s (fromBe (s.pbufBytes 1 32))
      (decompressY (fromBe (s.pbufBytes 1 32)) (s.pbufByte 0))) :=
  exec_pdec_of_decodePoint (by
    rw [decodePoint_pbufBytes, if_neg fun h => absurd (hlen.symm.trans h.1) (by decide), if_pos ⟨hlen, hlead⟩])

/-- Settles O36, by the cases of `decode_point`; the two lead bytes of the compressed form differ in parity. -/
theorem pdecDecodesThePoint : Obligations.PdecDecodesThePoint := by
  intro s x root
  refine ⟨exec_pdec_uncompressed, fun ⟨hlen, hlead⟩ => ?_, fun ⟨hlen, hlead⟩ => ?_, fun hunc hcomp => ?_⟩
  · rw [exec_pdec_compressed hlen (.inl hlead), hlead, decompressY_eq]
    rfl
  · rw [exec_pdec_compressed hlen (.inr hlead), hlead, decompressY_eq]
    rfl
  · rw [exec_eq, commandResult, decodePoint_pbufBytes, if_neg hunc, if_neg hcomp]
    rfl

/-! ### PENC (R79, R81) -/

/-- The lead byte of the compressed form shows the parity of y. -/
theorem compressedLead_eq (y : Reg) :
    (0x02 + (y.extractLsb' 0 1).setWidth 8 : Byte) = if y.getLsbD 0 then 0x03 else 0x02 := by
  have hbit : y.extractLsb' 0 1 = BitVec.ofBool (y.getLsbD 0) := by
    ext k hk
    obtain rfl : k = 0 := by omega
    simp
  rw [hbit]
  cases y.getLsbD 0 with
  | true => rfl
  | false => rfl

theorem length_encodePoint_compressed (x y : Reg) : (encodePoint x y .compressed).length = 33 := by
  rw [encodePoint, List.length_cons, length_be32]

theorem length_encodePoint_uncompressed (x y : Reg) : (encodePoint x y .uncompressed).length = 65 := by
  rw [encodePoint, List.length_cons, List.length_append, length_be32, length_be32]

/-- PENC succeeds: the buffer holds the encoded point, padded with 0, `PLEN` its length, and nothing else but the
status changes. -/
theorem exec_penc {s : State} (hwf : s.pbuf.wf) (f : PointForm) :
    ∃ t, exec (.penc f) s = .next t ∧ (∀ i, i < 68 → t.pbufByte i = (encodePoint s.px s.py f).getD i 0) ∧
      t = { s with
        pbuf := t.pbuf, plen := BitVec.ofNat 7 (encodePoint s.px s.py f).length
        busy := false, done := true, err := 0 } :=
  ⟨_, exec_eq _ s,
    fun _ hi => pbufByte_deliverBuffer hwf _ _ hi ((length_encodePoint_le s.px s.py f).trans (by decide)), rfl⟩

/-- Settles O37: each byte of the buffer is that of the padded encoding. -/
theorem pencEncodesThePoint : Obligations.PencEncodesThePoint := by
  intro s hwf
  constructor
  · obtain ⟨t, ht, hbyte, hframe⟩ := exec_penc hwf .uncompressed
    rw [length_encodePoint_uncompressed] at hframe
    refine ⟨t, ht, hbyte 0 (by decide), fun i hi => ⟨?_, ?_⟩, fun i hlo hhi => ?_, hframe⟩
    · rw [hbyte _ (by omega), encodePoint, Nat.add_comm, List.getD_cons_succ,
        List.getD_append _ _ _ _ (by rwa [length_be32]), getD_be32 _ hi]
    · rw [hbyte _ (by omega), encodePoint, show 33 + i = 32 + i + 1 by omega, List.getD_cons_succ,
        List.getD_append_right _ _ _ _ (by rw [length_be32]; omega), length_be32, Nat.add_sub_cancel_left,
        getD_be32 _ hi]
    · rw [hbyte _ (by omega), List.getD_eq_default _ _ (by rwa [length_encodePoint_uncompressed])]
  · obtain ⟨t, ht, hbyte, hframe⟩ := exec_penc hwf .compressed
    rw [length_encodePoint_compressed] at hframe
    refine ⟨t, ht, ?_, fun i hi => ?_, fun i hlo hhi => ?_, hframe⟩
    · rw [hbyte _ (by decide), encodePoint, List.getD_cons_zero, compressedLead_eq]
    · rw [hbyte _ (by omega), encodePoint, Nat.add_comm, List.getD_cons_succ, getD_be32 _ hi]
    · rw [hbyte _ (by omega), List.getD_eq_default _ _ (by rwa [length_encodePoint_compressed])]

/-! ### The round trip (R83) -/

theorem ofNat_fromBe_be32 (v : Reg) : BitVec.ofNat 256 (fromBe (be32 v)) = v := by
  rw [fromBe_be32, BitVec.ofNat_toNat, BitVec.setWidth_eq]

/-- The lead byte of the compressed form is accepted and has the parity of y. -/
theorem lead_of_parity {lead : Byte} {y : Reg} (h : lead = if y.getLsbD 0 then 0x03 else 0x02) :
    (lead = 0x02 ∨ lead = 0x03) ∧ lead.toNat % 2 = y.toNat % 2 := by
  have hbit : y.getLsbD 0 = decide (y.toNat % 2 = 1) := Nat.testBit_zero y.toNat
  by_cases hodd : y.toNat % 2 = 1
  · rw [hbit, if_pos (decide_eq_true hodd)] at h
    exact ⟨.inr h, by rw [h, hodd]; rfl⟩
  · rw [hbit, if_neg (by simpa using hodd)] at h
    exact ⟨.inl h, by rw [h, Nat.mod_two_ne_one.1 hodd]; rfl⟩

/-- Settles O38: PENC's bytes are what PDEC reads, and where the point is on the curve decompression finds its y. -/
theorem encodeThenDecodeIsIdentity : Obligations.EncodeThenDecodeIsIdentity := by
  intro s f hwf hcurve
  obtain ⟨⟨t, ht, hlead, hbytes, -, hframe⟩, ⟨t', ht', hlead', hbytes', -, hframe'⟩⟩ := pencEncodesThePoint s hwf
  cases f with
  | uncompressed =>
    have hx : t.pbufBytes 1 32 = be32 s.px := pbufBytes_eq_be32 fun i hi => (hbytes i hi).1
    have hy : t.pbufBytes 33 32 = be32 s.py := pbufBytes_eq_be32 fun i hi => (hbytes i hi).2
    have hlen : t.plen = 65 := congrArg State.plen hframe
    refine ⟨t, _, ht, exec_pdec_uncompressed ⟨hlen, hlead⟩, rfl, ?_, ?_⟩
    · rw [hx]
      exact ofNat_fromBe_be32 s.px
    · rw [hy]
      exact ofNat_fromBe_be32 s.py
  | compressed =>
    obtain ⟨hpos, hlt, hsq⟩ := hcurve rfl
    have hx : t'.pbufBytes 1 32 = be32 s.px := pbufBytes_eq_be32 hbytes'
    have hlen : t'.plen = 33 := congrArg State.plen hframe'
    obtain ⟨hform, hparity⟩ := lead_of_parity hlead'
    have hy : decompressY s.px.toNat (t'.pbufByte 0) = s.py.toNat := decompressY_of_root hpos hlt hsq hparity
    refine ⟨t', _, ht', exec_pdec_compressed hlen hform, rfl, ?_, ?_⟩
    · rw [hx]
      exact ofNat_fromBe_be32 s.px
    · rw [hx, fromBe_be32, hy]
      exact BitVec.ofNat_toNat ..

end Sys2Proof.Machine

/-!
# Proofs for `spec/42_point_arith.md`

The cases of `point_double` (R86) and `point_add` (R87), with the third point of a line as the obligations write it;
`point_mul` (R88) as a recursion on the multiplier; what its inner steps can answer (R93, R96); and why no inner step
fails for a point of the curve and a multiplier below its order, which for `G` is n: `(n − 1)·G` is `−G` (R96, G5).
-/

namespace Sys2Proof.Machine

open Sys2Proof.Config

/-! ### From the value of a command to the state it ends in (R117) -/

theorem exec_of_value {i : Instr} {s : State} {x y : Nat} (h : commandResult s i = .value x y) :
    exec i s = .next (succeeds s x y) := by
  rw [exec_eq, h]
  rfl

theorem exec_of_fail {i : Instr} {s : State} {kind : FailKind} (h : commandResult s i = .fail kind) :
    exec i s = .next (failsWith s kind.code) := by
  rw [exec_eq, h]
  rfl

/-! ### `inv` modulo p of a residue (R67) -/

theorem inv_modulo (a : Int) (m : Nat) : inv (modulo a m : Nat) m = inv a m := by
  simp only [inv, modulo_modulo]

theorem exists_inv_pField {a : Int} (ha : a % pField ≠ 0) :
    ∃ i : Nat, i < pField ∧ a * i % pField = 1 ∧ inv (modulo a pField : Nat) pField = .ok i := by
  have hgcd : Nat.gcd (modulo a pField) pField = 1 := by
    rw [gcd_modulo a pField_pos]
    exact not_not.1 (mt (gcd_mselMod_ne_one_iff a .field).1 (mt Int.emod_eq_zero_of_dvd ha))
  obtain ⟨i, hi⟩ := exists_inv_eq_ok a pField hgcd
  obtain ⟨hlt, hmul⟩ := (inv_eq_ok_iff a pField_prime.one_lt pField_lt).1 hi
  exact ⟨i, hlt, hmul, by rw [inv_modulo, hi]⟩

theorem inv_pField_of_emod_eq_zero {a : Int} (ha : a % pField = 0) :
    inv (modulo a pField : Nat) pField = .error .notInvertible := by
  rw [inv_modulo, inv_eq_error_iff, gcd_modulo a pField_pos]
  exact ⟨rfl, (gcd_mselMod_ne_one_iff a .field).2 (Int.dvd_of_emod_eq_zero ha)⟩

/-! ### The last lines of R86 and R87 -/

/-- The point R86 and R87 answer for a line through `p` of slope `lam`, with the x-coordinate still to be reduced. -/
def thirdPoint (p : Point) (lam x : Int) : Point :=
  let x' : Int := x % pField
  ⟨x'.toNat, ((lam * (p.x - x') - p.y) % pField).toNat⟩

/-- The point of the tangent formula (R86), with `i` the inverse of `2·y`. -/
def tangentPoint (p : Point) (i : Nat) : Point :=
  let lam : Int := 3 * (p.x : Int) * p.x * i % pField
  thirdPoint p lam (lam * lam - 2 * p.x)

/-- The point of the chord formula (R87), with `i` the inverse of `xP − xQ`. -/
def chordPoint (p q : Point) (i : Nat) : Point :=
  let lam : Int := ((p.y : Int) - q.y) * i % pField
  thirdPoint p lam (lam * lam - p.x - q.x)

/-- Both coordinates are below p (R93). -/
def Point.canonical (p : Point) : Prop := p.x < pField ∧ p.y < pField

theorem thirdPoint_canonical (p : Point) (lam x : Int) : (thirdPoint p lam x).canonical :=
  ⟨modulo_lt _ pField_pos, modulo_lt _ pField_pos⟩

/-! ### The cases of `point_double` (R86) -/

theorem pointDouble_vertical {p : Point} (hy : p.y % pField = 0) :
    pointDouble p = .error .pointAtInfinityUndefined := by
  rw [pointDouble, modulo_natCast, if_pos hy]

/-- p is an odd prime, so `2·y` has an inverse wherever y is not 0 modulo p. -/
theorem pointDouble_tangent {p : Point} (hy : p.y % pField ≠ 0) :
    ∃ i, i < pField ∧ 2 * p.y * i % pField = 1 ∧ pointDouble p = .ok (tangentPoint p i) := by
  have h2y : 2 * p.y % pField ≠ 0 := fun h =>
    hy (Nat.mod_eq_zero_of_dvd (Nat.Coprime.dvd_of_dvd_mul_left (by decide) (Nat.dvd_of_mod_eq_zero h)))
  obtain ⟨i, hlt, hmul, hi⟩ := exists_inv_pField (a := 2 * p.y) (by exact_mod_cast h2y)
  refine ⟨i, hlt, by exact_mod_cast hmul, ?_⟩
  rw [pointDouble, modulo_natCast, if_neg hy, hi]
  simp only [modulo_cast _ pField_pos]
  rfl

/-! ### The cases of `point_add` (R87) -/

theorem pointAdd_self (p : Point) : pointAdd p p = pointDouble p := by
  rw [pointAdd, if_pos ⟨rfl, rfl⟩]

theorem pointAdd_opposite {p q : Point} (hx : p.x = q.x) (hy : p.y ≠ q.y) :
    pointAdd p q = .error .pointAtInfinityUndefined := by
  rw [pointAdd, if_neg fun h => hy h.2, if_pos hx]

theorem pointAdd_congruent {p q : Point} (hx : p.x ≠ q.x) (hmod : ((p.x : Int) - q.x) % pField = 0) :
    pointAdd p q = .error .notInvertible := by
  rw [pointAdd, if_neg fun h => hx h.1, if_neg hx, inv_pField_of_emod_eq_zero hmod]

theorem pointAdd_chord {p q : Point} (hx : p.x ≠ q.x) (hmod : ((p.x : Int) - q.x) % pField ≠ 0) :
    ∃ i : Nat, i < pField ∧ ((p.x : Int) - q.x) * i % pField = 1 ∧ pointAdd p q = .ok (chordPoint p q i) := by
  obtain ⟨i, hlt, hmul, hi⟩ := exists_inv_pField hmod
  refine ⟨i, hlt, hmul, ?_⟩
  rw [pointAdd, if_neg fun h => hx h.1, if_neg hx, hi]
  simp only [modulo_cast _ pField_pos]
  rfl

/-! ### PDBL and PADD (R89, R90) -/

/-- Settles O39, by the two cases of `point_double`; twice p is above every operand. -/
theorem pdblDoublesThePoint : Obligations.PdblDoublesThePoint := by
  intro s
  refine ⟨?_, fun hy => ?_, fun hy => ?_⟩
  · rw [← Nat.dvd_iff_mod_eq_zero]
    exact mselMod_dvd_toNat_iff s.py .field
  · exact exec_of_fail (kind := .pointAtInfinityUndefined)
      (congrArg CmdResult.ofPoint (pointDouble_vertical (p := s.pointP) hy))
  · obtain ⟨i, hlt, hmul, hdouble⟩ := pointDouble_tangent (p := s.pointP) hy
    exact ⟨i, hlt, hmul, exec_of_value (congrArg CmdResult.ofPoint hdouble)⟩

/-- Settles O40, by the four cases of `point_add`; registers are equal when their integers are. -/
theorem paddAddsThePoints : Obligations.PaddAddsThePoints := by
  intro s
  refine ⟨fun ⟨hx, hy⟩ => ?_, fun ⟨hx, hy⟩ => ?_, fun ⟨hx, hmod⟩ => ?_, fun ⟨hx, hmod⟩ => ?_⟩
  · have hq : s.pointQ = s.pointP := by rw [State.pointQ, ← hx, ← hy, State.pointP]
    rw [exec_eq, exec_eq, commandResult, commandResult, hq, pointAdd_self]
  · exact exec_of_fail (kind := .pointAtInfinityUndefined) (congrArg CmdResult.ofPoint
      (pointAdd_opposite (p := s.pointP) (q := s.pointQ) (congrArg BitVec.toNat hx) (BitVec.toNat_ne.1 hy)))
  · exact exec_of_fail (kind := .notInvertible) (congrArg CmdResult.ofPoint
      (pointAdd_congruent (p := s.pointP) (q := s.pointQ) (BitVec.toNat_ne.1 hx) hmod))
  · obtain ⟨i, hlt, hmul, hadd⟩ := pointAdd_chord (p := s.pointP) (q := s.pointQ) (BitVec.toNat_ne.1 hx) hmod
    exact ⟨i, hlt, hmul, exec_of_value (congrArg CmdResult.ofPoint hadd)⟩

/-- Settles O44: the operands fall under the failing cases of R90 and R89. -/
theorem nonCanonicalOperandsAreNotReduced : Obligations.NonCanonicalOperandsAreNotReduced := by
  intro s
  obtain ⟨-, hopposite, hcongruent, -⟩ := paddAddsThePoints s
  obtain ⟨-, hvertical, -⟩ := pdblDoublesThePoint s
  have hp := pField_pos
  refine ⟨fun hx => hcongruent ⟨fun h => ?_, ?_⟩, fun hx hy => hopposite ⟨hx.symm, fun h => ?_⟩, fun hy => ?_⟩
  · rw [h] at hx
    omega
  · rw [hx, Nat.cast_add, sub_add_cancel_left, Int.neg_emod_self]
  · rw [h] at hy
    omega
  · exact hvertical (by rw [hy, Nat.mod_self])

/-! ### `point_mul` as a recursion on the multiplier (R88) -/

/-- One turn of R88's loop for the bit `b`: double, and add `p` where the bit is 1. -/
def doubleAndAdd (p : Point) (b : Nat) (acc : Point) : Except FailKind Point :=
  (pointDouble acc).bind fun twice => if b = 1 then pointAdd twice p else .ok twice

theorem doubleAndAdd_zero (p : Point) : doubleAndAdd p 0 = pointDouble := by
  funext acc
  exact bind_pure (pointDouble acc)

theorem pointMulLoop_succ (p : Point) (k i : Nat) (acc : Point) :
    pointMulLoop p k (i + 1) acc = (doubleAndAdd p (bit k i) acc).bind (pointMulLoop p k i) := by
  rw [pointMulLoop, doubleAndAdd]
  cases pointDouble acc with
  | error kind => rfl
  | ok twice =>
    simp only [Except.bind]
    split
    · cases pointAdd twice p with
      | ok sum => rfl
      | error kind => rfl
    · rfl

theorem bit_two_mul_add_zero (k : Nat) {b : Nat} (hb : b < 2) : bit (2 * k + b) 0 = b := by
  rw [bit, pow_zero]
  omega

theorem bit_two_mul_add_succ (k i : Nat) {b : Nat} (hb : b < 2) : bit (2 * k + b) (i + 1) = bit k i := by
  rw [bit, bit, pow_succ', ← Nat.div_div_eq_div_mul, show (2 * k + b) / 2 = k by omega]

theorem log2_two_mul_add {k b : Nat} (hk : 1 ≤ k) (hb : b < 2) : (2 * k + b).log2 = k.log2 + 1 := by
  rw [Nat.log2_def, if_pos (by omega), show (2 * k + b) / 2 = k by omega]

/-- A bit appended below the others is one more turn at the end. -/
theorem pointMulLoop_two_mul_add (p : Point) (k : Nat) {b : Nat} (hb : b < 2) (i : Nat) (acc : Point) :
    pointMulLoop p (2 * k + b) (i + 1) acc = (pointMulLoop p k i acc).bind (doubleAndAdd p b) := by
  induction i generalizing acc with
  | zero =>
    rw [pointMulLoop_succ, bit_two_mul_add_zero k hb]
    exact bind_pure (doubleAndAdd p b acc)
  | succ i ih =>
    rw [pointMulLoop_succ, bit_two_mul_add_succ k i hb, pointMulLoop_succ, funext ih]
    exact (bind_assoc (doubleAndAdd p (bit k i) acc) _ _).symm

theorem pointMul_of_pos (p : Point) {k : Nat} (hk : 1 ≤ k) : pointMul p k = pointMulLoop p k k.log2 p := by
  rw [pointMul, if_neg (by omega), bitlen, if_neg (by omega), Nat.add_sub_cancel]

theorem pointMul_zero (p : Point) : pointMul p 0 = .error .invalidScalarRange := rfl

theorem pointMul_one (p : Point) : pointMul p 1 = .ok p := rfl

theorem pointMul_two_mul_add (p : Point) {k b : Nat} (hk : 1 ≤ k) (hb : b < 2) :
    pointMul p (2 * k + b) = (pointMul p k).bind (doubleAndAdd p b) := by
  rw [pointMul_of_pos p hk, pointMul_of_pos p (by omega), log2_two_mul_add hk hb, pointMulLoop_two_mul_add p k hb]

/-- Settles O41: the last bit is 0 or 1, and its turn is the last one. -/
theorem pointMulIsDoubleAndAdd : Obligations.PointMulIsDoubleAndAdd := by
  refine fun p => ⟨pointMul_zero p, pointMul_one p, fun k hk => ⟨?_, ?_⟩⟩
  · rw [← doubleAndAdd_zero p]
    exact pointMul_two_mul_add p hk (b := 0) (by decide)
  · rw [pointMul_two_mul_add p hk (b := 1) (by decide)]
    exact (bind_assoc (pointMul p k) pointDouble (pointAdd · p)).symm

/-! ### What the inner steps answer (R93, R96) -/

/-- A canonical point, or one of the two failures of R86 and R87. -/
def StepResult : Except FailKind Point → Prop
  | .ok p => p.canonical
  | .error kind => kind = .pointAtInfinityUndefined ∨ kind = .notInvertible

theorem pointDouble_stepResult (p : Point) : StepResult (pointDouble p) := by
  by_cases hy : p.y % pField = 0
  · rw [pointDouble_vertical hy]
    exact .inl rfl
  · obtain ⟨i, -, -, hdouble⟩ := pointDouble_tangent hy
    rw [hdouble]
    exact thirdPoint_canonical _ _ _

theorem pointAdd_stepResult (p q : Point) : StepResult (pointAdd p q) := by
  by_cases hx : p.x = q.x
  · by_cases hy : p.y = q.y
    · obtain rfl : p = q := by cases p; cases q; exact congrArg₂ Point.mk hx hy
      rw [pointAdd_self]
      exact pointDouble_stepResult p
    · rw [pointAdd_opposite hx hy]
      exact .inl rfl
  · by_cases hmod : ((p.x : Int) - q.x) % pField = 0
    · rw [pointAdd_congruent hx hmod]
      exact .inr rfl
    · obtain ⟨i, -, -, hadd⟩ := pointAdd_chord hx hmod
      rw [hadd]
      exact thirdPoint_canonical _ _ _

theorem StepResult.bind {r : Except FailKind Point} {f : Point → Except FailKind Point} (hr : StepResult r)
    (hf : ∀ p, p.canonical → StepResult (f p)) : StepResult (r.bind f) := by
  cases r with
  | ok p => exact hf p hr
  | error kind => exact hr

theorem doubleAndAdd_stepResult (p : Point) (b : Nat) (acc : Point) : StepResult (doubleAndAdd p b acc) := by
  refine (pointDouble_stepResult acc).bind fun twice htwice => ?_
  split
  · exact pointAdd_stepResult twice p
  · exact htwice

theorem pointMulLoop_stepResult (p : Point) (k i : Nat) {acc : Point} (hacc : acc.canonical) :
    StepResult (pointMulLoop p k i acc) := by
  induction i generalizing acc with
  | zero => exact hacc
  | succ i ih =>
    rw [pointMulLoop_succ]
    exact (doubleAndAdd_stepResult p _ acc).bind fun _ => ih

/-- From the second multiple on there is a first turn, and its accumulator is canonical whatever `p` is. -/
theorem pointMul_stepResult (p : Point) {k : Nat} (hk : 2 ≤ k) : StepResult (pointMul p k) := by
  have hlog : k.log2 = (k / 2).log2 + 1 := by rw [Nat.log2_def, if_pos hk]
  rw [pointMul_of_pos p (by omega), hlog, pointMulLoop_succ]
  exact (doubleAndAdd_stepResult p _ p).bind fun _ => pointMulLoop_stepResult p k _

theorem pointMul_canonical {p r : Point} {k : Nat} (hk : 2 ≤ k) (h : pointMul p k = .ok r) : r.canonical := by
  have hstep := pointMul_stepResult p hk
  rwa [h] at hstep

theorem pointMul_error {p : Point} {k : Nat} {kind : FailKind} (h : pointMul p k = .error kind) :
    kind = .invalidScalarRange ∧ k = 0 ∨ kind = .pointAtInfinityUndefined ∨ kind = .notInvertible := by
  match k with
  | 0 =>
    rw [pointMul_zero] at h
    cases h
    exact .inl ⟨rfl, rfl⟩
  | 1 =>
    rw [pointMul_one] at h
    cases h
  | k + 2 =>
    have hstep := pointMul_stepResult p (k := k + 2) (by omega)
    rw [h] at hstep
    exact .inr hstep

/-! ### PMUL (R91), and what the commands deliver (R93) -/

/-- Settles O42: PMUL delivers what `point_mul` answers, whose failures are those of its inner steps and of K = 0. -/
theorem pmulDeliversTheMultiple : Obligations.PmulDeliversTheMultiple := by
  intro s
  have hok : ∀ p, pointMul s.pointP s.k.toNat = .ok p → exec .pmul s = .next (succeeds s p.x p.y) :=
    fun p hp => exec_of_value (congrArg CmdResult.ofPoint hp)
  have herror : ∀ kind, pointMul s.pointP s.k.toNat = .error kind → exec .pmul s = .next (failsWith s kind.code) :=
    fun kind hkind => exec_of_fail (congrArg CmdResult.ofPoint hkind)
  refine ⟨fun hk => ?_, fun hk => ?_, hok, fun kind hkind => ⟨herror kind hkind, ?_⟩⟩
  · exact herror .invalidScalarRange (by rw [hk]; exact pointMul_zero _)
  · exact hok s.pointP (by rw [hk]; exact pointMul_one _)
  · exact (pointMul_error hkind).imp_left fun ⟨hrange, hzero⟩ => ⟨hrange, BitVec.eq_of_toNat_eq hzero⟩

theorem complete_ofPoint_canonical {r : Except FailKind Point} (hr : StepResult r) (s : State) :
    (complete (.ofPoint r) s).rx.toNat < pField ∧ (complete (.ofPoint r) s).ry.toNat < pField := by
  cases r with
  | error kind => exact ⟨pField_pos, pField_pos⟩
  | ok p =>
    obtain ⟨hx, hy⟩ := hr
    simp only [ofPoint_ok, complete, deliverValue_rx, deliverValue_ry, BitVec.toNat_ofNat]
    exact ⟨(Nat.mod_le _ _).trans_lt hx, (Nat.mod_le _ _).trans_lt hy⟩

/-- Settles O43: each of the three commands delivers the answer of a last inner step. -/
theorem pointResultsAreCanonical : Obligations.PointResultsAreCanonical := by
  intro i s t hi hexec
  rw [exec_next hexec]
  obtain rfl | rfl | ⟨rfl, hk⟩ := hi
  · exact complete_ofPoint_canonical (pointDouble_stepResult s.pointP) s
  · exact complete_ofPoint_canonical (pointAdd_stepResult s.pointP s.pointQ) s
  · exact complete_ofPoint_canonical (pointMul_stepResult s.pointP hk) s

/-! ### `point_mul` without inversions

On Jacobian coordinates `(x·z², y·z³, z)` a turn of the loop needs no inverse. So the kernel can run all the turns for a
multiplier of 256 bits, which on R88's own loop are hundreds of runs of Euclid's algorithm. -/

/-- Jacobian coordinates, each a residue modulo p. -/
structure Jacobian where
  x : Nat
  y : Nat
  z : Nat

/-- The triple is `(x·z², y·z³, z)` modulo p for the point `(x, y)`, with z not 0. -/
abbrev Jacobian.Denotes (t : Jacobian) (p : Point) : Prop :=
  t.z % pField ≠ 0 ∧ t.x % pField = p.x * t.z ^ 2 % pField ∧ t.y % pField = p.y * t.z ^ 3 % pField

/-- The tangent formula (R86), multiplied out. -/
def Jacobian.double (t : Jacobian) : Jacobian :=
  let s : Int := 4 * t.x * t.y * t.y
  let m : Int := 3 * t.x * t.x
  let x' := modulo (m * m - 2 * s) pField
  ⟨x', modulo (m * (s - x') - 8 * t.y * t.y * t.y * t.y) pField, modulo (2 * t.y * t.z) pField⟩

/-- The chord formula (R87) for the point `q`, multiplied out. -/
def Jacobian.add (t : Jacobian) (q : Point) : Jacobian :=
  let h : Int := t.x - q.x * t.z * t.z
  let r : Int := t.y - q.y * t.z * t.z * t.z
  let x' := modulo (r * r - h * h * (t.x + q.x * t.z * t.z)) pField
  ⟨x', modulo (r * (t.x * h * h - x') - t.y * h * h * h) pField, modulo (t.z * h) pField⟩

/-- The triple where it denotes a point; z = 0 is what the formulas give at a vertical line. -/
def Jacobian.finite (t : Jacobian) : Option Jacobian := if t.z = 0 then none else some t

/-- `doubleAndAdd` on Jacobian coordinates. -/
def Jacobian.doubleAndAdd (p : Point) (b : Nat) (t : Jacobian) : Option Jacobian :=
  t.double.finite.bind fun twice => if b = 1 then (twice.add p).finite else some twice

/-- `pointMulLoop` on Jacobian coordinates. -/
def Jacobian.mulLoop (p : Point) (k : Nat) : Nat → Jacobian → Option Jacobian
  | 0, t => some t
  | i + 1, t => (t.doubleAndAdd p (bit k i)).bind (mulLoop p k i)

theorem Jacobian.denotes_iff (t : Jacobian) (p : Point) :
    t.Denotes p ↔ (t.z : ZMod pField) ≠ 0 ∧ (t.x : ZMod pField) = p.x * (t.z : ZMod pField) ^ 2 ∧
      (t.y : ZMod pField) = p.y * (t.z : ZMod pField) ^ 3 := by
  rw [Denotes, Ne, ← Nat.dvd_iff_mod_eq_zero, ← ZMod.natCast_eq_zero_iff, ← ZMod.natCast_eq_natCast_iff',
    ← ZMod.natCast_eq_natCast_iff']
  push_cast
  rfl

theorem Jacobian.finite_eq_some {t u : Jacobian} (h : t.finite = some u) : t.z ≠ 0 ∧ u = t := by
  rw [finite] at h
  split at h
  · cases h
  · next hz => exact ⟨hz, (Option.some.inj h).symm⟩

theorem cast_thirdPoint_x (p : Point) (lam x : Int) : ((thirdPoint p lam x).x : ZMod pField) = x := cast_modulo x

theorem cast_thirdPoint_y (p : Point) (lam x : Int) :
    ((thirdPoint p lam x).y : ZMod pField) = lam * (p.x - x) - p.y := by
  have hy : ((thirdPoint p lam x).y : ZMod pField) = ((lam * (p.x - x % pField) - p.y : Int) : ZMod pField) :=
    cast_modulo _
  rw [hy]
  push_cast
  rfl

/-- Each coordinate is that of the tangent formula up to a multiple of `2·y·i − 1`. -/
theorem Jacobian.double_denotes {t : Jacobian} {p : Point} (ht : t.Denotes p) (hz : t.double.z ≠ 0) :
    ∃ r, pointDouble p = .ok r ∧ t.double.Denotes r := by
  obtain ⟨-, hx, hy⟩ := (denotes_iff t p).1 ht
  have hz' : ((2 * t.y * t.z : Int) : ZMod pField) ≠ 0 := mt (modulo_eq_zero_iff_cast _).2 hz
  have hp : p.y % pField ≠ 0 := fun h => hz' (by
    push_cast
    rw [hy, (ZMod.natCast_eq_zero_iff _ _).2 (Nat.dvd_of_mod_eq_zero h)]
    ring)
  obtain ⟨i, -, hmul, hr⟩ := pointDouble_tangent hp
  have hi : (2 * p.y * i : ZMod pField) = 1 := by
    exact_mod_cast (ZMod.natCast_eq_natCast_iff' (2 * p.y * i) 1 pField).2 hmul
  refine ⟨_, hr, (denotes_iff _ _).2 ?_⟩
  rw [tangentPoint, cast_thirdPoint_x, cast_thirdPoint_y, double]
  simp only [cast_modulo]
  refine ⟨hz', ?_, ?_⟩
  · push_cast
    rw [hx, hy]
    linear_combination (-9 * p.x ^ 4 * t.z ^ 8 * (2 * p.y * i + 1) : ZMod pField) * hi
  · push_cast [cast_modulo]
    rw [hx, hy]
    linear_combination (t.z ^ 12 * (27 * p.x ^ 6 * ((2 * p.y * i) ^ 2 + 2 * p.y * i + 1) - 36 * p.x ^ 3 * p.y ^ 2) :
      ZMod pField) * hi

/-- Each coordinate is that of the chord formula up to a multiple of `(xP − xQ)·i − 1`. -/
theorem Jacobian.add_denotes {t : Jacobian} {p q : Point} (ht : t.Denotes p) (hz : (t.add q).z ≠ 0) :
    ∃ r, pointAdd p q = .ok r ∧ (t.add q).Denotes r := by
  obtain ⟨-, hx, hy⟩ := (denotes_iff t p).1 ht
  have hz' : ((t.z * (t.x - q.x * t.z * t.z) : Int) : ZMod pField) ≠ 0 := mt (modulo_eq_zero_iff_cast _).2 hz
  have hmod : ((p.x : Int) - q.x) % pField ≠ 0 := fun h => hz' (by
    have hpq := (ZMod.intCast_zmod_eq_zero_iff_dvd _ _).2 (Int.dvd_of_emod_eq_zero h)
    push_cast at hpq ⊢
    rw [hx]
    linear_combination (t.z ^ 3 : ZMod pField) * hpq)
  obtain ⟨i, -, hmul, hr⟩ := pointAdd_chord (fun h => hmod (by rw [h, sub_self, Int.zero_emod])) hmod
  have hi : ((p.x - q.x) * i : ZMod pField) = 1 := by
    have hcast := congrArg (Int.cast (R := ZMod pField)) hmul
    push_cast at hcast
    exact hcast
  refine ⟨_, hr, (denotes_iff _ _).2 ?_⟩
  rw [chordPoint, cast_thirdPoint_x, cast_thirdPoint_y, add]
  simp only [cast_modulo]
  refine ⟨hz', ?_, ?_⟩
  · push_cast
    rw [hx, hy]
    linear_combination (-t.z ^ 6 * (p.y - q.y) ^ 2 * ((p.x - q.x) * i + 1) : ZMod pField) * hi
  · push_cast [cast_modulo]
    rw [hx, hy]
    linear_combination (t.z ^ 9 * (p.y - q.y) * ((p.y - q.y) ^ 2 * (((p.x - q.x) * i) ^ 2 + (p.x - q.x) * i + 1) -
      (p.x - q.x) ^ 2 * (2 * p.x + q.x)) : ZMod pField) * hi

theorem Jacobian.doubleAndAdd_denotes {p acc : Point} {b : Nat} {t u : Jacobian} (ht : t.Denotes acc)
    (h : t.doubleAndAdd p b = some u) : ∃ r, Machine.doubleAndAdd p b acc = .ok r ∧ u.Denotes r := by
  obtain ⟨_, hfinite, hadd⟩ := Option.bind_eq_some_iff.1 h
  obtain ⟨hz, rfl⟩ := finite_eq_some hfinite
  obtain ⟨twice, htwice, hdenotes⟩ := double_denotes ht hz
  rw [Machine.doubleAndAdd, htwice]
  simp only [Except.bind]
  split at hadd
  · next hb =>
    obtain ⟨hz', rfl⟩ := finite_eq_some hadd
    rw [if_pos hb]
    exact add_denotes hdenotes hz'
  · next hb =>
    cases hadd
    rw [if_neg hb]
    exact ⟨twice, rfl, hdenotes⟩

/-- A run of the loop on Jacobian coordinates is a run of R88's loop, with the same point at the end. -/
theorem Jacobian.mulLoop_denotes {p : Point} {k i : Nat} {acc : Point} {t u : Jacobian} (ht : t.Denotes acc)
    (h : t.mulLoop p k i = some u) : ∃ r, pointMulLoop p k i acc = .ok r ∧ u.Denotes r := by
  induction i generalizing acc t with
  | zero =>
    cases h
    exact ⟨acc, rfl, ht⟩
  | succ i ih =>
    obtain ⟨next, hturn, hrest⟩ := Option.bind_eq_some_iff.1 h
    obtain ⟨r, hr, hnext⟩ := doubleAndAdd_denotes ht hturn
    rw [pointMulLoop_succ, hr]
    exact ih hnext hrest

/-- The triple determines the point: p is prime, so z cancels. -/
theorem Jacobian.Denotes.unique {t : Jacobian} {p q : Point} (hp : t.Denotes p) (hq : t.Denotes q)
    (hpc : p.canonical) (hqc : q.canonical) : p = q := by
  have : Fact (Nat.Prime pField) := ⟨pField_prime⟩
  obtain ⟨hz, hx, hy⟩ := (denotes_iff t p).1 hp
  obtain ⟨-, hx', hy'⟩ := (denotes_iff t q).1 hq
  obtain ⟨hpx, hpy⟩ := hpc
  obtain ⟨hqx, hqy⟩ := hqc
  have hxeq := (cast_inj_of_lt hpx hqx).1 (mul_right_cancel₀ (pow_ne_zero 2 hz) (hx.symm.trans hx'))
  have hyeq := (cast_inj_of_lt hpy hqy).1 (mul_right_cancel₀ (pow_ne_zero 3 hz) (hy.symm.trans hy'))
  cases p
  cases q
  exact congrArg₂ Point.mk hxeq hyeq

/-- `(n − 1)·G` is `−G`, run on Jacobian coordinates. -/
theorem Jacobian.mulLoop_generator_pred :
    ∃ t ∈ (Jacobian.mk gX gY 1).mulLoop generator (nOrder - 1) (nOrder - 1).log2, t.Denotes ⟨gX, pField - gY⟩ := by
  decide +kernel

/-- R91's corner case: for `P = G` and `K = n − 1` the result is `(G_X, p − G_Y)`. -/
theorem pointMul_generator_pred : pointMul generator (nOrder - 1) = .ok ⟨gX, pField - gY⟩ := by
  obtain ⟨t, hloop, hpred⟩ := Jacobian.mulLoop_generator_pred
  have hstart : (Jacobian.mk gX gY 1).Denotes generator := by decide
  obtain ⟨r, hr, hdenotes⟩ := Jacobian.mulLoop_denotes hstart hloop
  rw [← pointMul_of_pos generator (by decide)] at hr
  rw [hr, hdenotes.unique hpred (pointMul_canonical (by decide) hr) ⟨by decide, by decide⟩]

/-! ### No inner step fails below the order of the point (R96, G5) -/

/-- The leading bit stands alone above the bits the loop reads. -/
theorem div_two_pow_log2 {k : Nat} (hk : 1 ≤ k) : k / 2 ^ k.log2 = 1 := by
  have hle : 2 ^ k.log2 ≤ k := Nat.log2_self_le (by omega)
  have hlt : k < 2 ^ (k.log2 + 1) := Nat.lt_log2_self
  rw [pow_succ] at hlt
  exact Nat.div_eq_of_lt_le (by omega) (by omega)

theorem Represents.exists_ok {r : Except FailKind Point} {g : secp256k1.Point} (h : Represents r g) (hg : g ≠ 0) :
    ∃ p, r = .ok p ∧ onCurve p ∧ StandsFor p g := by
  cases r with
  | ok p => exact ⟨p, rfl, h⟩
  | error kind => exact absurd h.2 hg

theorem generator_onCurve : onCurve generator := by
  unfold onCurve
  decide +kernel

section PrimeField

variable [Fact (Nat.Prime pField)]

/-- One turn represents `2·h + b·g`, where the doubling does not meet the point at infinity. -/
theorem doubleAndAdd_represents {p acc : Point} {g h : secp256k1.Point} (hp : onCurve p) (hg : StandsFor p g)
    (hacc : StandsFor acc h) (hne : h + h ≠ 0) {b : Nat} (hb : b < 2) :
    Represents (doubleAndAdd p b acc) (h + h + b • g) := by
  obtain ⟨twice, htwice, hcurve, hstands⟩ := (pointDouble_represents hacc).exists_ok hne
  rw [doubleAndAdd, htwice]
  obtain rfl | rfl : b = 0 ∨ b = 1 := by omega
  · rw [zero_nsmul, add_zero]
    exact ⟨hcurve, hstands⟩
  · rw [one_nsmul]
    exact pointAdd_represents hcurve hp hstands hg

/-- The multiples the loop meets are by the leading bits of `k` and by their doubles, so none is the point at
infinity. -/
theorem pointMulLoop_succeeds {p : Point} {g : secp256k1.Point} (hp : onCurve p) (hg : StandsFor p g) {k : Nat}
    (hk : k < addOrderOf g) (i : Nat) {acc : Point} (hacc : StandsFor acc ((k / 2 ^ i) • g)) (hpos : 1 ≤ k / 2 ^ i) :
    ∃ r, pointMulLoop p k i acc = .ok r := by
  induction i generalizing acc with
  | zero => exact ⟨acc, rfl⟩
  | succ i ih =>
    have hbits := div_pow_succ_bit k i
    have hle := Nat.div_le_self k (2 ^ i)
    have hdouble : (k / 2 ^ (i + 1)) • g + (k / 2 ^ (i + 1)) • g ≠ 0 := by
      rw [← add_nsmul]
      exact nsmul_ne_zero_of_lt_addOrderOf (by omega) (by omega)
    have hturn := doubleAndAdd_represents hp hg hacc hdouble (bit_lt_two k i)
    rw [← nsmul_div_two_pow] at hturn
    obtain ⟨next, hnext, -, hstands⟩ := hturn.exists_ok (nsmul_ne_zero_of_lt_addOrderOf (by omega) (by omega))
    rw [pointMulLoop_succ, hnext]
    exact ih hstands (by omega)

/-- `point_mul` of a point of the curve succeeds for every multiplier from 1 to below the point's order. -/
theorem pointMul_succeeds {p : Point} {g : secp256k1.Point} (hp : onCurve p) (hg : StandsFor p g) {k : Nat}
    (hpos : 1 ≤ k) (hk : k < addOrderOf g) : ∃ r, pointMul p k = .ok r ∧ onCurve r := by
  have htop := div_two_pow_log2 hpos
  obtain ⟨r, hr⟩ := pointMulLoop_succeeds hp hg hk k.log2 (acc := p) (by rwa [htop, one_nsmul]) htop.ge
  rw [← pointMul_of_pos p hpos] at hr
  obtain ⟨hcurve, -⟩ := pointMul_standsFor hp hg hr
  exact ⟨r, hr, hcurve⟩

/-- `n·G` is the point at infinity, for `(n − 1)·G` is the opposite of `G`; n is prime. -/
theorem addOrderOf_generator {g : secp256k1.Point} (hg : StandsFor generator g) : addOrderOf g = nOrder := by
  obtain ⟨hcurve, hpred⟩ := pointMul_standsFor generator_onCurve hg pointMul_generator_pred
  have hsum := pointAdd_represents hcurve generator_onCurve hpred hg
  have hopposite : pointAdd ⟨gX, pField - gY⟩ generator = .error .pointAtInfinityUndefined :=
    pointAdd_opposite rfl (by decide)
  rw [hopposite, ← succ_nsmul, Nat.sub_add_cancel nOrder_pos] at hsum
  obtain ⟨-, hzero⟩ := hsum
  obtain ⟨hns, rfl⟩ := hg
  have : Fact (Nat.Prime nOrder) := ⟨nOrder_prime⟩
  exact addOrderOf_eq_prime hzero (WeierstrassCurve.Affine.Point.some_ne_zero hns)

end PrimeField

/-- `point_mul` of `G` succeeds for every valid scalar (R96, R98). -/
theorem pointMul_generator_succeeds {k : Nat} (hk : validScalar k) : ∃ r, pointMul generator k = .ok r ∧ onCurve r := by
  have : Fact (Nat.Prime pField) := ⟨pField_prime⟩
  obtain ⟨hpos, hle⟩ := hk
  obtain ⟨-, -, g, hg⟩ := (onCurve_iff generator).1 generator_onCurve
  have hn := nOrder_pos
  exact pointMul_succeeds generator_onCurve hg hpos (by rw [addOrderOf_generator hg]; omega)

/-- Settles O47: a valid scalar is below the order of `G`. -/
theorem publicKeyNeverFails : Obligations.PublicKeyNeverFails := by
  intro s hx hy hk
  obtain ⟨r, hr, hcurve⟩ := pointMul_generator_succeeds hk
  have hp : s.pointP = generator := by rw [State.pointP, hx, hy, generator]
  refine ⟨_, exec_eq .pmul s, ?_⟩
  rw [commandResult, hp, hr, delivered_point hcurve]
  exact ⟨rfl, hcurve⟩

end Sys2Proof.Machine

/-!
# Proofs for `spec/43_ecdsa.md`

SIGN as one attempt (R99, R101) with a low s (R100); VERIFY as the equation of R102. The two meet in R108: `G` has order
n, so for a signature that SIGN delivers `u1·G + u2·Q` is `K·G` or its opposite, which has the same x.
-/

namespace Sys2Proof.Machine

open Sys2Proof.Config

/-! ### Numbers modulo n (R67, R98) -/

theorem inv_nOrder_eq_ok_iff {a w : Nat} : inv a nOrder = .ok w ↔ w < nOrder ∧ a * w % nOrder = 1 := by
  rw [inv_eq_ok_iff _ nOrder_prime.one_lt nOrder_lt]
  norm_cast

theorem validScalar_mod {a : Nat} (ha : a % nOrder ≠ 0) : validScalar (a % nOrder) :=
  ⟨Nat.one_le_iff_ne_zero.2 ha, Nat.le_pred_of_lt (Nat.mod_lt a nOrder_pos)⟩

theorem not_dvd_of_validScalar {k : Nat} (hk : validScalar k) : ¬ nOrder ∣ k := by
  obtain ⟨hpos, hle⟩ := hk
  have hn := nOrder_pos
  exact Nat.not_dvd_of_pos_of_lt hpos (by omega)

theorem exists_inv_of_validScalar {k : Nat} (hk : validScalar k) : ∃ w, inv k nOrder = .ok w := by
  refine exists_inv_eq_ok k nOrder ?_
  rw [gcd_modulo k nOrder_pos]
  exact not_not.1 (mt (gcd_mselMod_ne_one_iff k .order).1 (mt Int.natCast_dvd_natCast.1 (not_dvd_of_validScalar hk)))

theorem toNat_ofNat_of_validScalar {k : Nat} (hk : validScalar k) : (BitVec.ofNat 256 k).toNat = k := by
  obtain ⟨-, hle⟩ := hk
  have hn := nOrder_lt
  rw [BitVec.toNat_ofNat, Nat.mod_eq_of_lt (by omega)]

/-! ### The low form (R100) -/

theorem two_mul_halfOrder : 2 * halfOrder + 1 = nOrder := by decide

/-- n is odd, so "above (n − 1)/2" is "twice it is above n". -/
theorem lowS_eq (s : Nat) : lowS s = if 2 * s > nOrder then nOrder - s else s := by
  have habove : s > halfOrder ↔ 2 * s > nOrder := by
    have hodd := two_mul_halfOrder
    omega
  rw [lowS, if_congr habove rfl rfl]

theorem lowS_bounds {s : Nat} (hs : validScalar s) : 1 ≤ lowS s ∧ lowS s ≤ halfOrder := by
  have hodd := two_mul_halfOrder
  rw [lowS]
  split <;> omega

theorem validScalar_lowS {s : Nat} (hs : validScalar s) : validScalar (lowS s) := by
  have hodd := two_mul_halfOrder
  obtain ⟨hpos, hle⟩ := lowS_bounds hs
  exact ⟨hpos, by omega⟩

theorem cast_lowS {s : Nat} (hs : validScalar s) : (lowS s : ZMod nOrder) = s ∨ (lowS s : ZMod nOrder) = -s := by
  rw [lowS]
  split
  · right
    rw [Nat.cast_sub (by omega), ZMod.natCast_self, zero_sub]
  · exact .inl rfl

/-! ### SIGN (R99, R101) -/

theorem signCore_of_key {d : Nat} (z k : Nat) (hd : ¬ validScalar d) :
    signCore d z k = .error .invalidScalarRange := by
  rw [signCore, if_pos hd]

theorem signCore_of_nonce {d k : Nat} (z : Nat) (hd : validScalar d) (hk : ¬ validScalar k) :
    signCore d z k = .error .resample := by
  rw [signCore, if_neg (not_not.2 hd), if_pos hk]

theorem signCore_of_validScalar {d k : Nat} (z : Nat) (hd : validScalar d) (hk : validScalar k) :
    signCore d z k = (pointMul generator k).bind fun p => signWithNonceX d z k p.x := by
  rw [signCore, if_neg (not_not.2 hd), if_neg (not_not.2 hk)]
  cases pointMul generator k with
  | ok p => rfl
  | error kind => rfl

/-- The s of an attempt before its low form (R99), with `ki` the inverse of the nonce. -/
def State.attemptS (s : State) (ki r : Nat) : Nat := ki * (s.z.toNat + r * s.d.toNat) % nOrder

theorem signEndsIn_ok (s : State) (ki : Nat) (p : Point) :
    signEndsIn s ki (.ok p) =
      if p.x % nOrder = 0 ∨ s.attemptS ki (p.x % nOrder) = 0 then failsWith s 6
      else succeeds s (p.x % nOrder) (lowS (s.attemptS ki (p.x % nOrder))) := by
  rw [lowS_eq]
  rfl

theorem signWithNonceX_eq {s : State} {ki : Nat} (hki : inv s.k.toNat nOrder = .ok ki) (x : Nat) :
    signWithNonceX s.d.toNat s.z.toNat s.k.toNat x =
      if x % nOrder = 0 ∨ s.attemptS ki (x % nOrder) = 0 then .error .resample
      else .ok ⟨x % nOrder, lowS (s.attemptS ki (x % nOrder))⟩ := by
  have hs : modulo (ki * (s.z.toNat + (x % nOrder : Nat) * s.d.toNat)) nOrder = s.attemptS ki (x % nOrder) :=
    modulo_natCast (ki * (s.z.toNat + x % nOrder * s.d.toNat)) nOrder
  rw [signWithNonceX, modulo_natCast, hki, ite_or]
  simp only [hs]

/-- R99's second half delivers what the attempt ends in. -/
theorem complete_signWithNonceX {s : State} {ki : Nat} (hki : inv s.k.toNat nOrder = .ok ki) (p : Point) :
    complete (.ofSignature (signWithNonceX s.d.toNat s.z.toNat s.k.toNat p.x)) s = signEndsIn s ki (.ok p) := by
  rw [signWithNonceX_eq hki, signEndsIn_ok]
  split
  · rfl
  · rfl

/-- Settles O48: the key, the nonce, and the rest of R99 for every answer of the multiplication. -/
theorem signIsOneAttempt : Obligations.SignIsOneAttempt := by
  intro s
  refine ⟨fun hd => ?_, fun hd hk => ?_, fun hd hk => ?_⟩
  · exact exec_of_fail (kind := .invalidScalarRange) (congrArg CmdResult.ofSignature (signCore_of_key _ _ hd))
  · exact exec_of_fail (kind := .resample) (congrArg CmdResult.ofSignature (signCore_of_nonce _ hd hk))
  · obtain ⟨ki, hki⟩ := exists_inv_of_validScalar hk
    obtain ⟨hlt, hmul⟩ := inv_nOrder_eq_ok_iff.1 hki
    refine ⟨ki, hlt, hmul, ?_⟩
    rw [exec_eq, commandResult, signCore_of_validScalar _ hd hk]
    cases pointMul generator s.k.toNat with
    | error kind => rfl
    | ok p => exact congrArg _ (complete_signWithNonceX hki p)

/-- `t` holds the signature of an attempt from `s`: `p` is `K·G`, and `ki` the inverse of the nonce (R99, R101). -/
structure Signs (s t : State) (ki : Nat) (p : Point) : Prop where
  key : validScalar s.d.toNat
  nonce : validScalar s.k.toNat
  inverse : s.k.toNat * ki % nOrder = 1
  point : pointMul generator s.k.toNat = .ok p
  r_valid : validScalar (p.x % nOrder)
  s_valid : validScalar (s.attemptS ki (p.x % nOrder))
  rx : t.rx.toNat = p.x % nOrder
  ry : t.ry.toNat = lowS (s.attemptS ki (p.x % nOrder))

theorem exists_signs_of_signEndsIn {s : State} {ki : Nat} (hd : validScalar s.d.toNat) (hk : validScalar s.k.toNat)
    (hki : s.k.toNat * ki % nOrder = 1) (herr : (signEndsIn s ki (pointMul generator s.k.toNat)).err = 0) :
    ∃ p, Signs s (signEndsIn s ki (pointMul generator s.k.toNat)) ki p := by
  cases hp : pointMul generator s.k.toNat with
  | error kind =>
    rw [hp] at herr
    exact absurd herr (code_ne_zero kind)
  | ok p =>
    rw [hp, signEndsIn_ok] at herr
    rw [signEndsIn_ok]
    split at herr
    · exact absurd herr (code_ne_zero .resample)
    · next h =>
      obtain ⟨hr, hs⟩ := not_or.1 h
      have hr' := validScalar_mod hr
      have hs' := validScalar_mod hs
      rw [if_neg h]
      exact ⟨p, hd, hk, hki, hp, hr', hs', toNat_ofNat_of_validScalar hr',
        toNat_ofNat_of_validScalar (validScalar_lowS hs')⟩

/-- SIGN reports code 0 only with a signature. -/
theorem exists_signs {s t : State} (hexec : exec .sign s = .next t) (herr : t.err = 0) : ∃ ki p, Signs s t ki p := by
  obtain ⟨hkey, hnonce, hattempt⟩ := signIsOneAttempt s
  by_cases hd : validScalar s.d.toNat
  · by_cases hk : validScalar s.k.toNat
    · obtain ⟨ki, -, hki, hend⟩ := hattempt hd hk
      obtain rfl := Host.Outcome.next.inj (hexec.symm.trans hend)
      exact ⟨ki, exists_signs_of_signEndsIn hd hk hki herr⟩
    · obtain rfl := Host.Outcome.next.inj (hexec.symm.trans (hnonce hd hk))
      exact absurd herr (code_ne_zero .resample)
  · obtain rfl := Host.Outcome.next.inj (hexec.symm.trans (hkey hd))
    exact absurd herr (code_ne_zero .invalidScalarRange)

/-- Settles O49: r and s are valid scalars, and the low form is at most (n − 1)/2. -/
theorem signatureIsLowS : Obligations.SignatureIsLowS := by
  intro s t hexec herr
  obtain ⟨ki, p, hsigns⟩ := exists_signs hexec herr
  obtain ⟨hpos, hle⟩ := hsigns.r_valid
  obtain ⟨hpos', hle'⟩ := lowS_bounds hsigns.s_valid
  rw [hsigns.rx, hsigns.ry]
  exact ⟨hpos, hle, hpos', hle'⟩

/-! ### VERIFY (R102, R103) -/

theorem verifyPoint_eq_ok_iff {q p : Point} {u1 u2 : Nat} : verifyPoint q u1 u2 = .ok p ↔
    ∃ a b, pointMul generator u1 = .ok a ∧ pointMul q u2 = .ok b ∧ pointAdd a b = .ok p := by
  rw [verifyPoint]
  cases pointMul generator u1 with
  | error kind => simp
  | ok a =>
    cases pointMul q u2 with
    | error kind => simp
    | ok b => simp

theorem verifyCore_eq_true_iff {q : Point} {z r s : Nat} : verifyCore q z r s = true ↔
    r < nOrder ∧ s < nOrder ∧ ∃ w p, inv s nOrder = .ok w ∧
      verifyPoint q (z * w % nOrder) (r * w % nOrder) = .ok p ∧ p.x % nOrder = r := by
  rw [verifyCore]
  by_cases hrange : nOrder ≤ r ∨ nOrder ≤ s
  · rw [if_pos hrange]
    refine iff_of_false Bool.false_ne_true ?_
    rintro ⟨hr, hs, -⟩
    omega
  · obtain ⟨hr, hs⟩ : r < nOrder ∧ s < nOrder := by omega
    rw [if_neg hrange]
    simp only [hr, hs, true_and]
    cases inv s nOrder with
    | error kind => simp
    | ok w =>
      have hu1 : modulo (z * w) nOrder = z * w % nOrder := modulo_natCast (z * w) nOrder
      have hu2 : modulo (r * w) nOrder = r * w % nOrder := modulo_natCast (r * w) nOrder
      simp only [hu1, hu2]
      cases hp : verifyPoint q (z * w % nOrder) (r * w % nOrder) with
      | error kind => simp [hp]
      | ok p => simp [hp, modulo_natCast]

/-- Settles O50: the value of `verify_core`, with the conditions of `inv` and of the three point steps written out. -/
theorem verifyAcceptsExactly : Obligations.VerifyAcceptsExactly := by
  intro s accepts
  have hiff : verifyCore s.pointQ s.z.toNat s.sr.toNat s.ss.toNat = true ↔ accepts := by
    rw [verifyCore_eq_true_iff]
    refine and_congr_right fun _ => and_congr_right fun _ => exists_congr fun w => ?_
    simp only [inv_nOrder_eq_ok_iff, verifyPoint_eq_ok_iff]
    constructor
    · rintro ⟨p, ⟨hlt, hmul⟩, ⟨a, b, ha, hb, hp⟩, hx⟩
      exact ⟨a, b, p, hlt, hmul, ha, hb, hp, hx⟩
    · rintro ⟨a, b, p, hlt, hmul, ha, hb, hp, hx⟩
      exact ⟨p, ⟨hlt, hmul⟩, ⟨a, b, ha, hb, hp⟩, hx⟩
  refine ⟨fun h => exec_of_value ?_, fun h => exec_of_fail (kind := .invalidSignature) ?_⟩
  · exact congrArg CmdResult.ofVerdict (hiff.2 h)
  · exact congrArg CmdResult.ofVerdict (Bool.eq_false_iff.2 (mt hiff.1 h))

/-- Settles O51: r = 0 and a hash of 0 modulo n make a multiplier 0, and 0 has no inverse. -/
theorem verifyRejectsDegenerateInputs : Obligations.VerifyRejectsDegenerateInputs := by
  intro s hdegenerate
  obtain ⟨-, hreject⟩ := verifyAcceptsExactly s
  refine hreject ?_
  rintro ⟨hr, hs, w, a, b, p, -, hmul, ha, hb, -, -⟩
  rcases hdegenerate with hzero | hzero | hle | hle | hzero
  · have hu2 : s.sr.toNat * w % nOrder = 0 := by
      rw [show s.sr.toNat = 0 from congrArg BitVec.toNat hzero, zero_mul, Nat.zero_mod]
    rw [hu2, pointMul_zero] at hb
    cases hb
  · rw [show s.ss.toNat = 0 from congrArg BitVec.toNat hzero, zero_mul] at hmul
    cases hmul
  · exact absurd hr (Nat.not_lt.2 hle)
  · exact absurd hs (Nat.not_lt.2 hle)
  · have hu1 : s.z.toNat * w % nOrder = 0 := by rw [Nat.mul_mod, hzero, zero_mul, Nat.zero_mod]
    rw [hu1, pointMul_zero] at ha
    cases ha

/-! ### A signature from SIGN verifies (R108) -/

theorem cast_mul_eq_one {a b : Nat} (h : a * b % nOrder = 1) : (a * b : ZMod nOrder) = 1 := by
  exact_mod_cast (ZMod.natCast_eq_natCast_iff' (a * b) 1 nOrder).2 h

theorem not_dvd_of_mul_mod_eq_one {a w : Nat} (h : a * w % nOrder = 1) : ¬ nOrder ∣ w := fun hdvd => by
  rw [Nat.mod_eq_zero_of_dvd (hdvd.mul_left a)] at h
  cases h

/-- n is prime, so it divides no product of numbers it does not divide. -/
theorem validScalar_mul_mod {a w : Nat} (ha : ¬ nOrder ∣ a) (hw : ¬ nOrder ∣ w) : validScalar (a * w % nOrder) :=
  validScalar_mod fun h => (nOrder_prime.dvd_mul.1 (Nat.dvd_of_mod_eq_zero h)).elim ha hw

/-- `u1 + u2·d` (R102): what VERIFY multiplies `G` by, under the public key `d·G` and with `w` the inverse of s. -/
def verifyMultiplier (d z r w : Nat) : Nat := z * w % nOrder + r * w % nOrder * d

/-- With `σ` the s of the attempt, `z + r·d` is `k·σ`; the low form is `σ` or its opposite, and `w` is its inverse. So
the multiplier, `(z + r·d)·w`, is the nonce or its opposite. -/
theorem Signs.cast_verifyMultiplier {s t : State} {ki w : Nat} {p : Point} (h : Signs s t ki p)
    (hw : t.ry.toNat * w % nOrder = 1) :
    (verifyMultiplier s.d.toNat s.z.toNat t.rx.toNat w : ZMod nOrder) = s.k.toNat ∨
      (verifyMultiplier s.d.toNat s.z.toNat t.rx.toNat w : ZMod nOrder) = -s.k.toNat := by
  have hk := cast_mul_eq_one h.inverse
  have hlow := cast_mul_eq_one hw
  have hm : (verifyMultiplier s.d.toNat s.z.toNat t.rx.toNat w : ZMod nOrder) =
      (s.z.toNat + t.rx.toNat * s.d.toNat) * w := by
    rw [verifyMultiplier]
    push_cast [ZMod.natCast_mod]
    ring
  have hs : (s.attemptS ki t.rx.toNat : ZMod nOrder) = ki * (s.z.toNat + t.rx.toNat * s.d.toNat) := by
    rw [State.attemptS, ZMod.natCast_mod]
    push_cast
    rfl
  have hsign := cast_lowS h.s_valid
  rw [← h.ry, ← h.rx, hs] at hsign
  refine hsign.imp (fun hpos => ?_) fun hneg => ?_
  · linear_combination hm + s.k.toNat * hlow - s.k.toNat * w * hpos - w * (s.z.toNat + t.rx.toNat * s.d.toNat) * hk
  · linear_combination hm - s.k.toNat * hlow + s.k.toNat * w * hneg - w * (s.z.toNat + t.rx.toNat * s.d.toNat) * hk

theorem StandsFor.ne_zero {p : Point} {g : secp256k1.Point} (hg : StandsFor p g) : g ≠ 0 := by
  obtain ⟨h, rfl⟩ := hg
  exact WeierstrassCurve.Affine.Point.some_ne_zero h

/-- Opposite points have the same x. -/
theorem x_eq_of_eq_or_eq_neg {p q : Point} {g h : secp256k1.Point} (hp : onCurve p) (hq : onCurve q)
    (hg : StandsFor p g) (hh : StandsFor q h) (heq : g = h ∨ g = -h) : p.x = q.x := by
  obtain ⟨hpx, -⟩ := hp
  obtain ⟨hqx, -⟩ := hq
  obtain ⟨hns, rfl⟩ := hg
  obtain ⟨hns', rfl⟩ := hh
  refine (cast_inj_of_lt hpx hqx).1 ?_
  rcases heq with heq | heq
  · exact (WeierstrassCurve.Affine.Point.some.inj heq).1
  · rw [WeierstrassCurve.Affine.Point.neg_some] at heq
    exact (WeierstrassCurve.Affine.Point.some.inj heq).1

section PrimeField

variable [Fact (Nat.Prime pField)]

theorem addOrderOf_nsmul_generator {g : secp256k1.Point} (hg : StandsFor generator g) {d : Nat} (hd : validScalar d) :
    addOrderOf (d • g) = nOrder := by
  have horder := addOrderOf_generator hg
  rw [Nat.Coprime.addOrderOf_nsmul, horder]
  rw [horder]
  exact nOrder_prime.coprime_iff_not_dvd.2 (not_dvd_of_validScalar hd)

/-- Multiples of `G` depend on the multiplier modulo n only. -/
theorem zsmul_generator_congr {g : secp256k1.Point} (hg : StandsFor generator g) {a b : Int}
    (h : (a : ZMod nOrder) = b) : a • g = b • g := by
  rw [zsmul_eq_zsmul_iff_modEq, addOrderOf_generator hg]
  exact (ZMod.intCast_eq_intCast_iff a b nOrder).1 h

theorem Signs.verifyMultiplier_nsmul {s t : State} {ki w : Nat} {p : Point} (h : Signs s t ki p) {g : secp256k1.Point}
    (hg : StandsFor generator g) (hw : t.ry.toNat * w % nOrder = 1) :
    verifyMultiplier s.d.toNat s.z.toNat t.rx.toNat w • g = s.k.toNat • g ∨
      verifyMultiplier s.d.toNat s.z.toNat t.rx.toNat w • g = -(s.k.toNat • g) := by
  rw [← natCast_zsmul, ← natCast_zsmul g s.k.toNat, ← neg_zsmul]
  refine (h.cast_verifyMultiplier hw).imp (fun heq => ?_) fun heq => ?_
  · exact zsmul_generator_congr hg (by exact_mod_cast heq)
  · exact zsmul_generator_congr hg (by push_cast; exact heq)

/-- Under the public key `d·G`, whose order is n too, neither multiplication of R102 fails, and its point is the
multiple of `G`. -/
theorem verifyPoint_represents {g : secp256k1.Point} (hg : StandsFor generator g) {d : Nat} (hd : validScalar d)
    {q : Point} (hq : pointMul generator d = .ok q) {z r w : Nat} (hu1 : validScalar (z * w % nOrder))
    (hu2 : validScalar (r * w % nOrder)) :
    Represents (verifyPoint q (z * w % nOrder) (r * w % nOrder)) (verifyMultiplier d z r w • g) := by
  obtain ⟨hcurve, hstands⟩ := pointMul_standsFor generator_onCurve hg hq
  obtain ⟨hpos, -⟩ := hu2
  obtain ⟨a, ha, hacurve⟩ := pointMul_generator_succeeds hu1
  obtain ⟨b, hb, hbcurve⟩ := pointMul_succeeds hcurve hstands hpos
    (by rw [addOrderOf_nsmul_generator hg hd]; exact Nat.mod_lt _ nOrder_pos)
  obtain ⟨-, hastands⟩ := pointMul_standsFor generator_onCurve hg ha
  obtain ⟨-, hbstands⟩ := pointMul_standsFor hcurve hstands hb
  rw [verifyPoint, ha, hb, verifyMultiplier, add_nsmul, mul_nsmul']
  exact pointAdd_represents hacurve hbcurve hastands hbstands

end PrimeField

/-- The point of R102 is `K·G` or its opposite, so it is no failure and its x is that of `K·G`, which gave r. -/
theorem Signs.verifyCore_eq_true {s t : State} {ki : Nat} {p q : Point} (h : Signs s t ki p)
    (hz : s.z.toNat % nOrder ≠ 0) (hq : pointMul generator s.d.toNat = .ok q) :
    verifyCore q s.z.toNat t.rx.toNat t.ry.toNat = true := by
  have : Fact (Nat.Prime pField) := ⟨pField_prime⟩
  have hrx : validScalar t.rx.toNat := h.rx ▸ h.r_valid
  have hry : validScalar t.ry.toNat := h.ry ▸ validScalar_lowS h.s_valid
  obtain ⟨w, hinv⟩ := exists_inv_of_validScalar hry
  obtain ⟨-, hw⟩ := inv_nOrder_eq_ok_iff.1 hinv
  have hwdvd := not_dvd_of_mul_mod_eq_one hw
  have hu1 := validScalar_mul_mod (mt Nat.mod_eq_zero_of_dvd hz) hwdvd
  have hu2 := validScalar_mul_mod (not_dvd_of_validScalar hrx) hwdvd
  obtain ⟨-, -, g, hg⟩ := (onCurve_iff generator).1 generator_onCurve
  obtain ⟨hpcurve, hpstands⟩ := pointMul_standsFor generator_onCurve hg h.point
  have hmultiple := h.verifyMultiplier_nsmul hg hw
  have hne : verifyMultiplier s.d.toNat s.z.toNat t.rx.toNat w • g ≠ 0 :=
    hmultiple.elim (fun heq => heq ▸ hpstands.ne_zero) fun heq => heq ▸ neg_ne_zero.2 hpstands.ne_zero
  obtain ⟨v, hv, hvcurve, hvstands⟩ := (verifyPoint_represents hg h.key hq hu1 hu2).exists_ok hne
  have hx : v.x = p.x := x_eq_of_eq_or_eq_neg hvcurve hpcurve hvstands hpstands hmultiple
  have hn := nOrder_pos
  exact verifyCore_eq_true_iff.2 ⟨by omega, by omega, w, v, hinv, hv, by rw [hx, h.rx]⟩

/-- Settles O52: VERIFY reads the key, the hash and the signature of the attempt, and `verify_core` accepts them. -/
theorem signedMessagesVerify : Obligations.SignedMessagesVerify := by
  intro s v t q hexec herr hz hq hqx hqy hvz hsr hss
  obtain ⟨ki, p, hsigns⟩ := exists_signs hexec herr
  have hkey : v.pointQ = q := congrArg₂ Point.mk hqx hqy
  refine exec_of_value ?_
  rw [commandResult, hkey, hvz, hsr, hss, hsigns.verifyCore_eq_true hz hq, ofVerdict_true]

end Sys2Proof.Machine

/-!
# Proofs for `spec/60_exceptions.md`

The completion step (R117): whose turn a step is, the one stop of the engine's turn, and the status every completion
leaves (R111, R119); the outcome codes of each command (R112); and the acknowledge (R120).
-/

namespace Sys2Proof.Machine

open Sys2Proof.Config

/-! ### The engine's turn (R117, R141) -/

theorem step_of_enginesTurn {s : State} {rest : List StepLabel} (h : enginesTurn s rest) :
    step s = completionStep (beginStep rest s) := by
  obtain hcons | ⟨hnil, rfl⟩ := h
  · exact step_eq_of_cons hcons
  · exact step_eq_of_nil hnil

/-- Every step is the engine's turn, or a port access or a reset, which never stops (R141). -/
theorem enginesTurn_or_step_next (s : State) :
    (∃ rest, enginesTurn s rest) ∨ ((∀ rest, ¬ enginesTurn s rest) ∧ ∃ t, step s = .next t) := by
  cases hag : s.agenda with
  | nil => exact .inl ⟨[], .inr ⟨hag, rfl⟩⟩
  | cons l rest =>
    have hstep := step_eq_of_cons hag
    cases l with
    | complete => exact .inl ⟨rest, .inl hag⟩
    | regRead addr => exact .inr ⟨by simp [enginesTurn, hag], _, hstep⟩
    | regWrite addr data => exact .inr ⟨by simp [enginesTurn, hag], _, hstep⟩
    | reset => exact .inr ⟨by simp [enginesTurn, hag], _, hstep⟩

/-- The engine's turn stops on an illegal word in flight alone: a command itself never stops. -/
theorem completionStep_eq_fault_iff {s : State} {r : Fault} :
    completionStep s = .fault r ↔ r = .illegalInFlight ∧ s.busy = true ∧ ∀ i, decode s.cmd ≠ .ok i := by
  cases hbusy : s.busy with
  | false => simp [completionStep_idle hbusy]
  | true =>
    cases hd : decode s.cmd with
    | ok i => simp [completionStep_busy hbusy hd, exec_eq]
    | error e => simp [completionStep, hbusy, hd]

/-- Settles O6: a step that can stop is the engine's turn, whose stops are known. -/
theorem onlyAnIllegalWordInFlightStops : Obligations.OnlyAnIllegalWordInFlightStops := by
  intro s r
  obtain ⟨rest, hturn⟩ | ⟨hturn, t, hstep⟩ := enginesTurn_or_step_next s
  · have hex : ∃ rest, enginesTurn s rest := ⟨rest, hturn⟩
    rw [step_of_enginesTurn hturn, completionStep_eq_fault_iff, and_iff_left hex]
    rfl
  · rw [hstep]
    exact ⟨nofun, fun ⟨_, _, _, rest, h⟩ => absurd h (hturn rest)⟩

/-! ### A placed command (notes/assumptions/3.md) -/

theorem decode_of_decodeTableWord {w : Nat} {i : Instr} (h : decodeTableWord 32 w = some i) :
    decode (BitVec.ofNat 32 w) = .ok i := by
  rw [decodeTableWord, decodeBytes_wordBytes] at h
  split at h
  · split at h
    · next hd => cases h; exact hd
    · cases h
  · cases h

theorem withFetchWord_of_decode {w : Nat} {i : Instr} (h : decode (BitVec.ofNat 32 w) = .ok i) (s : State) :
    s.withFetchWord 32 w = { s with
      cmd := BitVec.ofNat 32 w, busy := true, done := false, err := 0, agenda := .complete :: s.agenda } := by
  have hw : BitVec.ofNat 32 (w % 2 ^ 32) = BitVec.ofNat 32 w := BitVec.eq_of_toNat_eq (Nat.mod_mod _ _)
  rw [State.withFetchWord, hw, stageCommand, h]
  rfl

/-- Settles O23: the engine's turn with a legal word in flight is its command, and a placed word is in flight with the
engine's turn next. -/
theorem stepRunsTheCommandInFlight : Obligations.StepRunsTheCommandInFlight := by
  have hrun : ∀ (s : State) (rest : List StepLabel) (i : Instr), s.busy = true → decode s.cmd = .ok i →
      enginesTurn s rest → step s = exec i { s with agenda := rest, resp := none } := by
    intro s rest i hbusy hd hturn
    rw [step_of_enginesTurn hturn]
    exact completionStep_busy hbusy hd
  refine ⟨hrun, fun s w i h => ?_⟩
  have hd := decode_of_decodeTableWord h
  rw [withFetchWord_of_decode hd]
  exact hrun _ _ i rfl hd (.inl rfl)

/-! ### The status a completion leaves (R111, R117, R119) -/

/-- Settles O25: every command answers with the writes of its result, and a code other than 0 is that of a failure. -/
theorem everyCompletionEndsTheCommand : Obligations.EveryCompletionEndsTheCommand := by
  intro i s
  obtain ⟨-, -, hie, -, -, hbusy, hdone⟩ := complete_frame (commandResult s i) s
  have hirq : irq (complete (commandResult s i) s) = s.ie := by rw [irq, hie, hdone, Bool.and_true]
  refine ⟨_, exec_eq i s, hbusy, hdone, ?_⟩
  obtain ⟨herr, -⟩ | ⟨kind, -, herr, hrx, hry⟩ := complete_err (commandResult s i) s
  · exact ⟨by simp [herr], absurd herr, hirq⟩
  · exact ⟨herr ▸ code_le kind, fun _ => ⟨hrx, hry⟩, hirq⟩

/-! ### The failures of each command (R112) -/

theorem ofNumber_eq_fail_iff {r : Except FailKind Nat} {kind : FailKind} :
    CmdResult.ofNumber r = .fail kind ↔ r = .error kind := by
  cases r <;> simp

theorem ofPoint_eq_fail_iff {r : Except FailKind Point} {kind : FailKind} :
    CmdResult.ofPoint r = .fail kind ↔ r = .error kind := by
  cases r <;> simp

theorem ofSignature_eq_fail_iff {r : Except FailKind Signature} {kind : FailKind} :
    CmdResult.ofSignature r = .fail kind ↔ r = .error kind := by
  cases r <;> simp

theorem ofVerdict_fail {accept : Bool} {kind : FailKind} (h : CmdResult.ofVerdict accept = .fail kind) :
    kind = .invalidSignature := by
  cases accept with
  | true => cases h
  | false => cases h; rfl

theorem decodePoint_error {b : List Byte} {len : Nat} {kind : FailKind} (h : decodePoint b len = .error kind) :
    kind = .invalidPointEncoding := by
  simp only [decodePoint] at h
  split at h
  · cases h
  · split at h
    · cases h
    · cases h; rfl

theorem pointDouble_error {p : Point} {kind : FailKind} (h : pointDouble p = .error kind) :
    kind = .pointAtInfinityUndefined := by
  by_cases hy : p.y % pField = 0
  · cases h.symm.trans (pointDouble_vertical hy)
    rfl
  · obtain ⟨i, -, -, hok⟩ := pointDouble_tangent hy
    cases h.symm.trans hok

theorem pointAdd_error {p q : Point} {kind : FailKind} (h : pointAdd p q = .error kind) :
    kind = .pointAtInfinityUndefined ∨ kind = .notInvertible := by
  have hstep := pointAdd_stepResult p q
  rwa [h] at hstep

/-- SIGN fails by its key or its nonce alone: a valid nonce has a multiple of `G` and an inverse, which is why R112 calls
codes 3 and 4 unreachable. -/
theorem signCore_error {s : State} {kind : FailKind}
    (h : signCore s.d.toNat s.z.toNat s.k.toNat = .error kind) : kind = .invalidScalarRange ∨ kind = .resample := by
  by_cases hd : validScalar s.d.toNat
  · by_cases hk : validScalar s.k.toNat
    · obtain ⟨ki, hki⟩ := exists_inv_of_validScalar hk
      obtain ⟨p, hp, -⟩ := pointMul_generator_succeeds hk
      rw [signCore_of_validScalar _ hd hk, hp, Except.bind, signWithNonceX_eq hki] at h
      split at h
      · cases h; exact .inr rfl
      · cases h
    · cases h.symm.trans (signCore_of_nonce _ hd hk)
      exact .inr rfl
  · cases h.symm.trans (signCore_of_key _ _ hd)
    exact .inl rfl

/-- A command fails only with the kinds of its row of R112. -/
theorem code_mem_possibleCodes {i : Instr} {s : State} {kind : FailKind} (h : commandResult s i = .fail kind) :
    kind.code ∈ possibleCodes i := by
  cases i with
  | modinv m =>
    obtain ⟨rfl, -⟩ := (inv_eq_error_iff _ _ _).1 (ofNumber_eq_fail_iff.1 h)
    simp [possibleCodes, FailKind.code]
  | modexp m => cases h
  | pdec =>
    obtain rfl := decodePoint_error (ofPoint_eq_fail_iff.1 h)
    decide
  | penc f => cases h
  | pdbl =>
    obtain rfl := pointDouble_error (ofPoint_eq_fail_iff.1 h)
    decide
  | padd => obtain rfl | rfl := pointAdd_error (ofPoint_eq_fail_iff.1 h) <;> decide
  | pmul => obtain ⟨rfl, -⟩ | rfl | rfl := pointMul_error (ofPoint_eq_fail_iff.1 h) <;> decide
  | sign => obtain rfl | rfl := signCore_error (ofSignature_eq_fail_iff.1 h) <;> decide
  | verify =>
    obtain rfl := ofVerdict_fail h
    decide

theorem zero_mem_possibleCodes (i : Instr) : 0 ∈ possibleCodes i := by cases i <;> exact .head _

/-- Settles O28: a completion reports 0, or the code of the failure the command evaluates to. -/
theorem outcomeCodesOfEachCommand : Obligations.OutcomeCodesOfEachCommand := by
  intro i s
  refine ⟨_, exec_eq i s, ?_⟩
  obtain ⟨herr, -⟩ | ⟨kind, hfail, herr, -, -⟩ := complete_err (commandResult s i) s
  · rw [herr]
    exact zero_mem_possibleCodes i
  · rw [herr]
    exact code_mem_possibleCodes hfail

/-! ### The acknowledge (R120) -/

theorem step_ackDone {s : State} {rest : List StepLabel} (h : s.agenda = ackDone ++ rest) :
    step s = .next (acknowledge (s.written rest)) :=
  step_write_status h

/-- Settles O17: the write to STATUS is the acknowledge, which clears DONE alone. -/
theorem acknowledgeKeepsTheOutcome : Obligations.AcknowledgeKeepsTheOutcome := by
  intro s rest h
  have hoperand : ∀ r, (acknowledge (s.written rest)).operand r = s.operand r := fun r => by
    rw [operand_acknowledge, operand_written]
  exact ⟨_, step_ackDone h, rfl, Bool.and_false s.ie, rfl, rfl, rfl, rfl, fun _ => rfl, rfl, rfl, rfl, hoperand⟩

end Sys2Proof.Machine

/-!
# Proofs for `spec/70_reset_and_hazards.md`

Every step gives a next state where the invariants hold (R141); the engine's turn is empty in a quiescent state (R142);
reset abandons the command in flight (R129); and port accesses neither change a command in flight nor keep it from
completing (R136, R141).
-/

namespace Sys2Proof.Machine

/-! ### Totality (R58, R141) -/

/-- The engine's turn stops on an illegal word alone, which the invariants shut out. -/
theorem completionStep_next_of_inv {s : State} (h : Inv s) : ∃ t, completionStep s = .next t := by
  cases hbusy : s.busy with
  | false => exact ⟨s, completionStep_idle hbusy⟩
  | true =>
    obtain ⟨i, hd⟩ := h.busyLegal hbusy
    exact ⟨_, (completionStep_busy hbusy hd).trans (exec_eq i s)⟩

/-- Settles O5: only the engine's turn could stop, and it keeps to a legal word in flight. -/
theorem stepNeverStops : Obligations.StepNeverStops := by
  intro s hinv
  obtain ⟨rest, hturn⟩ | ⟨-, hnext⟩ := enginesTurn_or_step_next s
  · rw [step_of_enginesTurn hturn]
    exact completionStep_next_of_inv (inv_beginStep hinv rest)
  · exact hnext

/-! ### Quiescence (R142) -/

theorem quiescent_iff {s : State} : quiescent s = true ↔ s.busy = false := by simp [quiescent]

theorem programEnded_iff {s : State} : programEnded s = true ↔ s.agenda = [] ∧ s.busy = false := by
  simp [programEnded, quiescent]

theorem step_idle_of_enginesTurn {s : State} {rest : List StepLabel} (hidle : s.busy = false)
    (h : enginesTurn s rest) : step s = .next { s with agenda := rest, resp := none } := by
  rw [step_of_enginesTurn h]
  exact completionStep_idle hidle

/-- A state that steps to itself is never left. -/
theorem runSteps_of_step_self {s : State} (h : step s = .next s) (k : Nat) : runSteps k s = .next s := by
  induction k with
  | zero => rfl
  | succ k ih => rw [runSteps_succ h, ih]

theorem step_programEnded {s : State} (h : programEnded s = true) : step s = .next { s with resp := none } := by
  obtain ⟨hnil, hidle⟩ := programEnded_iff.1 h
  rw [step_idle_of_enginesTurn hidle (.inr ⟨hnil, rfl⟩), ← hnil]

/-- Settles O24: the first step of an ended program drops the last answer, and the state it leaves steps to itself. -/
theorem quiescentStateStays : Obligations.QuiescentStateStays := by
  refine ⟨fun s rest hq hturn => step_idle_of_enginesTurn (quiescent_iff.1 hq) hturn, fun s hend k => ?_,
    fun s hbusy => by simp [programEnded, quiescent, hbusy]⟩
  have hself : step { s with resp := none } = .next { s with resp := none } :=
    step_programEnded (s := { s with resp := none }) hend
  rw [runSteps_succ (step_programEnded hend), runSteps_of_step_self hself]

/-! ### Reset (R129) -/

theorem step_reset {s : State} {rest : List StepLabel} (h : s.agenda = .reset :: rest) :
    step s = .next { State.reset with agenda := rest } :=
  step_eq_of_cons h

/-- Settles O2: after reset nothing is in flight, so the engine's turn is empty. -/
theorem resetAbandonsTheCommandInFlight : Obligations.ResetAbandonsTheCommandInFlight := by
  refine ⟨fun s rest h => ⟨step_reset h, ?_⟩, fun p finish hrst => by simp [cycleLabels, hrst]⟩
  rintro rest' rfl
  have hturn : step { State.reset with agenda := .complete :: rest' } = .next { State.reset with agenda := rest' } :=
    step_idle_of_enginesTurn rfl (.inl rfl)
  rw [runSteps_succ (step_reset h), runSteps_succ hturn, runSteps]

/-! ### Port accesses while a command is in flight (R45, R141) -/

/-- `t` is `s` but for what port accesses can change while a command is in flight: DONE, IE, the steps to come and the
port's answer. No command reads any of them. -/
def Undisturbed (s t : State) : Prop :=
  ∃ done ie agenda resp, t = { s with done := done, ie := ie, agenda := agenda, resp := resp }

theorem Undisturbed.refl (s : State) : Undisturbed s s := ⟨s.done, s.ie, s.agenda, s.resp, rfl⟩

theorem Undisturbed.trans {s t u : State} (hst : Undisturbed s t) (htu : Undisturbed t u) : Undisturbed s u := by
  obtain ⟨_, _, _, _, rfl⟩ := hst
  obtain ⟨done, ie, agenda, resp, rfl⟩ := htu
  exact ⟨done, ie, agenda, resp, rfl⟩

theorem Undisturbed.busy {s t : State} (h : Undisturbed s t) : t.busy = s.busy := by
  obtain ⟨_, _, _, _, rfl⟩ := h
  rfl

theorem Undisturbed.cmd {s t : State} (h : Undisturbed s t) : t.cmd = s.cmd := by
  obtain ⟨_, _, _, _, rfl⟩ := h
  rfl

theorem Undisturbed.commandResult_eq {s t : State} (h : Undisturbed s t) (i : Instr) :
    commandResult t i = commandResult s i := by
  obtain ⟨_, _, _, _, rfl⟩ := h
  cases i <;> rfl

/-- While a command is in flight a write is refused, acknowledges, or sets IE. -/
theorem regWrite_undisturbed {s : State} (hbusy : s.busy = true) (addr : Addr) (data : Word) :
    Undisturbed s (regWrite addr data s) ∧ (regWrite addr data s).agenda = s.agenda := by
  obtain heq | ⟨target, s', -, hwrite, heq⟩ := regWrite_cases addr data s
  · rw [heq]
    exact ⟨⟨s.done, s.ie, s.agenda, _, rfl⟩, rfl⟩
  · rw [heq]
    obtain rfl | rfl := target_of_writeTarget_busy hbusy hwrite
    · cases hwrite
      split
      · exact ⟨⟨false, s.ie, s.agenda, _, rfl⟩, rfl⟩
      · exact ⟨⟨s.done, s.ie, s.agenda, _, rfl⟩, rfl⟩
    · cases hwrite
      exact ⟨⟨s.done, _, s.agenda, _, rfl⟩, rfl⟩

/-- A port access leaves the command in flight as it is. -/
theorem step_host_undisturbed {s : State} {l : StepLabel} {rest : List StepLabel} (hbusy : s.busy = true)
    (hl : l.isHost = true) (h : s.agenda = l :: rest) :
    ∃ t, step s = .next t ∧ Undisturbed s t ∧ t.agenda = rest := by
  have hbegin : Undisturbed s (beginStep rest s) := ⟨s.done, s.ie, rest, none, rfl⟩
  rw [step_eq_of_cons h]
  cases l with
  | regRead addr =>
    obtain ⟨answer, heq⟩ := regRead_eq addr (beginStep rest s)
    exact ⟨_, rfl, heq ▸ ⟨s.done, s.ie, rest, some answer, rfl⟩, heq ▸ rfl⟩
  | regWrite addr data =>
    obtain ⟨hwrite, hagenda⟩ := regWrite_undisturbed (s := beginStep rest s) hbusy addr data
    exact ⟨_, rfl, hbegin.trans hwrite, hagenda⟩
  | complete => cases hl
  | reset => cases hl

/-- Any number of port accesses leaves the command in flight as it is. -/
theorem runSteps_host_undisturbed {s : State} {accesses rest : List StepLabel} (hbusy : s.busy = true)
    (hhost : ∀ l ∈ accesses, l.isHost = true) (h : s.agenda = accesses ++ rest) :
    ∃ t, runSteps accesses.length s = .next t ∧ Undisturbed s t ∧ t.agenda = rest := by
  induction accesses generalizing s with
  | nil => exact ⟨s, rfl, .refl s, h⟩
  | cons l accesses ih =>
    obtain ⟨hl, hhost⟩ := List.forall_mem_cons.1 hhost
    obtain ⟨t, hstep, hst, hag⟩ := step_host_undisturbed hbusy hl h
    obtain ⟨u, hrun, htu, hrest⟩ := ih (hst.busy.trans hbusy) hhost hag
    exact ⟨u, (runSteps_succ hstep).trans hrun, hst.trans htu, hrest⟩

/-! ### The completion after the accesses (R117, R136, R141) -/

/-- The state a command of `s` ends in when accesses came between: that of the completion at once, but for IE, the steps
to come and the port's answer. -/
def State.completedLater (s : State) (i : Instr) (ie : Bool) (rest : List StepLabel) : State :=
  { complete (commandResult s i) s with ie := ie, agenda := rest, resp := none }

/-- The completion writes what it would have written in the state before the accesses. -/
theorem step_completion_undisturbed {s t : State} {i : Instr} {rest : List StepLabel} (hbusy : s.busy = true)
    (hd : decode s.cmd = .ok i) (h : Undisturbed s t) (hturn : enginesTurn t rest) :
    step t = .next (s.completedLater i t.ie rest) := by
  have hrest : Undisturbed s (beginStep rest t) := h.trans ⟨t.done, t.ie, rest, none, rfl⟩
  rw [step_of_enginesTurn hturn, completionStep_busy (hrest.busy.trans hbusy) (hrest.cmd ▸ hd), exec_eq,
    hrest.commandResult_eq, State.completedLater]
  obtain ⟨_, _, _, _, rfl⟩ := h
  cases commandResult s i <;> rfl

/-- Settles O30: the accesses leave the command undisturbed, and the completion after them is that of the start. -/
theorem completionIgnoresInterleavedAccesses : Obligations.CompletionIgnoresInterleavedAccesses := by
  intro s i accesses rest hbusy hd hhost hag
  obtain ⟨t, hrun, hst, hrest⟩ := runSteps_host_undisturbed hbusy hhost hag
  have hstep := step_completion_undisturbed hbusy hd hst (.inl hrest)
  obtain ⟨hop, hcmd, -, -, -, hidle, hdone⟩ := complete_frame (commandResult s i) s
  refine ⟨_, s.completedLater i t.ie rest, exec_eq i s, ?_, rfl, rfl, rfl, rfl, rfl, hidle, hdone, hcmd, ?_, rfl⟩
  · rw [runSteps_add 1 hrun, runSteps_succ hstep, runSteps]
  · intro r
    rw [← hop r]
    cases r <;> rfl

/-- With no reset to come, an agenda is port accesses up to the engine's turn, or to its end. -/
theorem exists_accesses_before_turn {labels : List StepLabel} (h : ∀ l ∈ labels, l ≠ .reset) :
    ∃ accesses turn rest, labels = accesses ++ turn ∧ (∀ l ∈ accesses, l.isHost = true) ∧
      (turn = .complete :: rest ∨ (turn = [] ∧ rest = [])) := by
  induction labels with
  | nil => exact ⟨[], [], [], rfl, by simp, .inr ⟨rfl, rfl⟩⟩
  | cons l labels ih =>
    obtain ⟨hl, hlabels⟩ := List.forall_mem_cons.1 h
    obtain ⟨accesses, turn, rest, rfl, hhost, hturn⟩ := ih hlabels
    have hcons (hl : l.isHost = true) : ∀ l' ∈ l :: accesses, l'.isHost = true := List.forall_mem_cons.2 ⟨hl, hhost⟩
    cases l with
    | regRead addr => exact ⟨.regRead addr :: accesses, turn, rest, rfl, hcons rfl, hturn⟩
    | regWrite addr data => exact ⟨.regWrite addr data :: accesses, turn, rest, rfl, hcons rfl, hturn⟩
    | complete => exact ⟨[], _, _, rfl, by simp, .inl rfl⟩
    | reset => exact absurd rfl hl

/-- Settles O31: the engine's turn comes after the accesses before it, which are no more than the agenda holds. -/
theorem everyCommandCompletes : Obligations.EveryCommandCompletes := by
  intro s i hbusy hd hreset
  obtain ⟨accesses, turn, rest, hag, hhost, hturn⟩ := exists_accesses_before_turn hreset
  obtain ⟨t, hrun, hst, rfl⟩ := runSteps_host_undisturbed hbusy hhost hag
  have hstep := step_completion_undisturbed hbusy hd hst hturn
  obtain ⟨-, -, -, -, -, hidle, hdone⟩ := complete_frame (commandResult s i) s
  have hlen : accesses.length ≤ s.agenda.length := by simp [hag]
  exact ⟨accesses.length, t, _, _, hlen, hrun, hst.busy.trans hbusy, hst.cmd, hstep, hidle, hdone, exec_eq i s,
    rfl, rfl, rfl, rfl, rfl⟩

end Sys2Proof.Machine
